-- ==== Sys2Proof/Word.lean ====
section
/-! DEFINITION. The machine word and the address (00_scope.md rules R6 and R7). -/

namespace Sys2Proof

/-- A 64-bit signed word (R6): its value is `w.toInt`, in [-2^63, 2^63 - 1]. PRESUMED (log entry 8): two's complement. -/
abbrev Word := BitVec 64

/-- An address is a natural number, unbounded (R7). -/
abbrev Addr := Nat

end Sys2Proof
end

