-- ==== Sys2Proof/Config.lean ====
section
/-! DEFINITION. The three implementation parameters of 00_scope.md rules R7 to R9, and their defaults. No behaviour of this
hardware is a free value (93_implementation_defined.md), so the file holds no opaque constant. -/

namespace Sys2Proof

/-- OVERFLOW_POLICY (R9): what Add and Multiply do with a result outside the word range. -/
inductive OverflowPolicy where
  | fault
  | wrap
  deriving DecidableEq, Repr

/-- The host's configuration of one machine. It never changes after construct (log entry 5). -/
structure Config where
  /-- OVERFLOW_POLICY (R9). -/
  overflowPolicy : OverflowPolicy
  /-- ADDR_LIMIT (R7): accesses at or above it fault. -/
  addrLimit : Option Nat
  /-- QUEUE_LIMIT (R8): the most unread entries a queue may hold. -/
  queueLimit : Option Nat
  deriving DecidableEq, Repr

/-- The defaults the spec states: Fault, none, none (R7 to R9). -/
def Config.standard : Config :=
  { overflowPolicy := .fault, addrLimit := none, queueLimit := none }

end Sys2Proof
end

