-- ==== Sys2Proof/Syntax.lean ====
section
/-! DEFINITION. The decoded instruction: an opcode and three parameter modes (30_encoding.md rule R92). Operand words are
not part of it: they are read from memory when the instruction runs (R94, R95). -/

namespace Sys2Proof

/-- The two parameter modes (R93). -/
inductive Mode where
  | position
  | immediate
  deriving DecidableEq, Repr

/-- One constructor per row of the opcode table (R100). Each carries the modes of operands 1, 2 and 3, which the decoder
always produces, also for operands the instruction does not have (R98). -/
inductive Instr where
  | add (m1 m2 m3 : Mode)
  | multiply (m1 m2 m3 : Mode)
  | input (m1 m2 m3 : Mode)
  | output (m1 m2 m3 : Mode)
  | jumpIfTrue (m1 m2 m3 : Mode)
  | jumpIfFalse (m1 m2 m3 : Mode)
  | lessThan (m1 m2 m3 : Mode)
  | equals (m1 m2 m3 : Mode)
  | halt (m1 m2 m3 : Mode)
  deriving DecidableEq, Repr

/-- Why a word is no instruction (R92, R102). -/
inductive DecodeError where
  | unknownOpcode (w : Word)
  deriving DecidableEq, Repr

end Sys2Proof
end

