-- ==== Sys2Proof/Machine/State.lean ====
section
/-! DEFINITION. The state of one instance (10_state.md rules R30 to R49), the fault kinds (60_exceptions.md rule R200), the
reasons a step stops, the host commands' names (40_engine.md rule R140) and the reset state. -/

namespace Sys2Proof.Machine

/-- One word of memory at an address. Memory has words and no bytes (20_memory.md R63, R64), so a cell is a pair of an address
and a word (DESIGN CHOICE, log entry 3). -/
abbrev Cell := Nat × Word

/-- Memory: the nonzero words in rising order of address; an address not listed reads as 0 (10_state.md R33, log entries 3, 4). -/
abbrev Memory := List Cell

/-- The engine's status (R37). -/
inductive Status where
  | running
  | waitingForInput
  | halted
  deriving DecidableEq, Repr

/-- The six fault kinds with the information each records (60_exceptions.md R200). -/
inductive FaultKind where
  | unknownOpcode (w : Word)
  | executeAfterHalt
  | negativeAddress (v : Word)
  | arithmeticOverflow (a b : Word)
  | addressLimit (a : Addr)
  | queueLimit
  deriving DecidableEq, Repr

/-- The state of one instance (R31). `cfg` is the host's configuration, the model's own field (log entry 5); `mem` and
`imageLen` hold image and extension (log entry 4). -/
structure State where
  /-- The parameters (00_scope.md R7 to R9); constant. -/
  cfg : Config
  /-- The length L of the dense image (R32); constant. -/
  imageLen : Nat
  /-- Image and extension as the one memory of R33. -/
  mem : Memory
  /-- The instruction pointer (R34, R36). -/
  ip : Addr
  /-- The engine's status (R37). -/
  status : Status
  /-- Every value ever submitted, in order (R41). -/
  inQ : List Word
  /-- Entries of `inQ` consumed (R41). -/
  inRd : Nat
  /-- Every value ever emitted, in order (R42). -/
  outQ : List Word
  /-- Entries of `outQ` taken by the host (R42). -/
  outRd : Nat
  /-- The fault record: the kind and the ip of the abort (R45). -/
  fault : Option (FaultKind × Addr)
  deriving DecidableEq, Repr

/-- Why the engine makes no step. -/
inductive Fault where
  /-- Answered by a step of an instance whose fault record is set: the run was ended by that fault and no step runs any more
  (40_engine.md R120, 60_exceptions.md R203). Safe: nothing is claimed after the abort. -/
  | aborted (kind : FaultKind) (ip : Addr)
  deriving DecidableEq, Repr

/-- What the model gives no meaning. -/
inductive Refusal where
  /-- Answered by an arm of `exec` for an instruction without a meaning; no arm does. Safe. -/
  | notModelled (mnemonic : String)
  /-- Answered by every host command while the fault record is set (60_exceptions.md R206). Safe. -/
  | commandWhileFaulted
  /-- Answered by submit_input when QUEUE_LIMIT is set and reached (40_engine.md R131). Safe. -/
  | inputQueueFull
  /-- Answered by a command of the network model that names no constructed instance (60_exceptions.md R225). Safe. -/
  | noSuchInstance
  deriving DecidableEq, Repr

/-- The host commands on a constructed instance (40_engine.md R140). -/
inductive HostCommand where
  | submitInput (v : Word)
  | run
  | hasUnreadOutput
  | takeOutput
  | peekLastOutput
  | isHalted
  | isHaltedOrBlocked
  | memPeek (a : Addr)
  deriving DecidableEq, Repr

/-- What a host command returns (40_engine.md R140). -/
inductive Reply where
  | nothing
  | bool (b : Bool)
  | word (w : Word)
  | optWord (w : Option Word)
  deriving DecidableEq, Repr

/-- The machine right after construct of the empty image with the default parameters (R49, 70_reset_and_hazards.md R240;
log entry 6). -/
def State.reset : State :=
  { cfg := Config.standard
    imageLen := 0
    mem := []
    ip := 0
    status := .running
    inQ := []
    inRd := 0
    outQ := []
    outRd := 0
    fault := none }

end Sys2Proof.Machine
end

