-- ==== Sys2Proof/Machine/Flags.lean ====
section
/-! DEFINITION. The machine has no flags (10_state.md R30, 41_arithmetic.md R156). What stands in their place: the range check
and the overflow policy of Add and Multiply (R154), and the words 0 and 1 a comparison writes and a jump tests (R155, R156). -/

namespace Sys2Proof.Machine

/-- The mathematical result is a word's value (00_scope.md R6). -/
def inRange (r : Int) : Bool := decide (-2 ^ 63 ≤ r) && decide (r ≤ 2 ^ 63 - 1)

/-- `wrap64(r) = ((r + 2^63) mod 2^64) - 2^63` (R154). -/
def wrap64 (r : Int) : Int := (r + 2 ^ 63) % 2 ^ 64 - 2 ^ 63

/-- The word whose value is `r`, for `r` in range. -/
def wordOf (r : Int) : Word := BitVec.ofInt 64 r

/-- The result of Add or Multiply on `a` and `b` with the mathematical result `r` (R154). -/
def arithResult (c : Config) (a b : Word) (r : Int) : Except FaultKind Word :=
  if inRange r then .ok (wordOf r)
  else
    match c.overflowPolicy with
    | .fault => .error (.arithmeticOverflow a b)
    | .wrap => .ok (wordOf (wrap64 r))

/-- Exactly 1 when the relation holds, exactly 0 otherwise (R155). -/
def boolWord (p : Bool) : Word := if p then 1 else 0

/-- A jump's condition word is true when it is not 0 (43_control.md R185). -/
def wordIsTrue (c : Word) : Bool := c != 0

end Sys2Proof.Machine
end

