-- ==== Sys2Proof/WellFormed.lean ====
section
/-! DEFINITION. Well-formed instructions: those a canonical word stands for (30_encoding.md rule R103), in which the mode of
every operand the instruction does not have is Position. An Immediate destination is well formed: the machine executes it
(R97). -/

namespace Sys2Proof

/-- The check, one clause for each operand the instruction lacks (R98, R99, R103). -/
def Instr.wellFormed : Instr → Bool
  | .add _ _ _ => true
  | .multiply _ _ _ => true
  | .input _ m2 m3 => m2 == .position && m3 == .position
  | .output _ m2 m3 => m2 == .position && m3 == .position
  | .jumpIfTrue _ _ m3 => m3 == .position
  | .jumpIfFalse _ _ m3 => m3 == .position
  | .lessThan _ _ _ => true
  | .equals _ _ _ => true
  | .halt m1 m2 m3 => m1 == .position && m2 == .position && m3 == .position

end Sys2Proof
end

