-- ==== Sys2Proof/Decode.lean ====
section
/-! DEFINITION. The decoder and the canonical encoder (30_encoding.md rules R90 to R93 and R100 to R103), and the reader of
the opcode table's words. -/

namespace Sys2Proof

/-- `digit k n`, the decimal digit of weight 10^k (00_scope.md R11). -/
def digit (k n : Nat) : Nat := n / 10 ^ k % 10

/-- Digit 0 is Position, any nonzero digit is Immediate (R93). -/
def modeOfDigit (d : Nat) : Mode := if d = 0 then .position else .immediate

/-- The instruction of an opcode number with its three modes (the table of R100). -/
def instrOfOpcode (op : Nat) (m1 m2 m3 : Mode) : Option Instr :=
  match op with
  | 1 => some (.add m1 m2 m3)
  | 2 => some (.multiply m1 m2 m3)
  | 3 => some (.input m1 m2 m3)
  | 4 => some (.output m1 m2 m3)
  | 5 => some (.jumpIfTrue m1 m2 m3)
  | 6 => some (.jumpIfFalse m1 m2 m3)
  | 7 => some (.lessThan m1 m2 m3)
  | 8 => some (.equals m1 m2 m3)
  | 99 => some (.halt m1 m2 m3)
  | _ => none

/-- The decoder (R92): total, refusing negative words and unknown opcodes by name. The mode of operand k is digit k + 1, and
digits above digit 4 are not read (R90). -/
def decode (w : Word) : Except DecodeError Instr :=
  if w.toInt < 0 then
    .error (.unknownOpcode w)
  else
    match instrOfOpcode (w.toNat % 100) (modeOfDigit (digit 2 w.toNat)) (modeOfDigit (digit 3 w.toNat))
        (modeOfDigit (digit 4 w.toNat)) with
    | some i => .ok i
    | none => .error (.unknownOpcode w)

/-- The opcode number of an instruction (R100; 6, 7 and 8 are inferred numbers, D14, log entry 9). -/
def opcodeOf : Instr → Nat
  | .add _ _ _ => 1
  | .multiply _ _ _ => 2
  | .input _ _ _ => 3
  | .output _ _ _ => 4
  | .jumpIfTrue _ _ _ => 5
  | .jumpIfFalse _ _ _ => 6
  | .lessThan _ _ _ => 7
  | .equals _ _ _ => 8
  | .halt _ _ _ => 99

/-- How many operands an instruction has (R99). -/
def operandCount : Instr → Nat
  | .add _ _ _ => 3
  | .multiply _ _ _ => 3
  | .input _ _ _ => 1
  | .output _ _ _ => 1
  | .jumpIfTrue _ _ _ => 2
  | .jumpIfFalse _ _ _ => 2
  | .lessThan _ _ _ => 3
  | .equals _ _ _ => 3
  | .halt _ _ _ => 0

/-- The length in words: 1 + the operand count (R101). -/
def lengthOf (i : Instr) : Nat := 1 + operandCount i

/-- The instruction with the modes of the operands it lacks set to Position (R98, R103). -/
def canonical : Instr → Instr
  | .add m1 m2 m3 => .add m1 m2 m3
  | .multiply m1 m2 m3 => .multiply m1 m2 m3
  | .input m1 _ _ => .input m1 .position .position
  | .output m1 _ _ => .output m1 .position .position
  | .jumpIfTrue m1 m2 _ => .jumpIfTrue m1 m2 .position
  | .jumpIfFalse m1 m2 _ => .jumpIfFalse m1 m2 .position
  | .lessThan m1 m2 m3 => .lessThan m1 m2 m3
  | .equals m1 m2 m3 => .equals m1 m2 m3
  | .halt _ _ _ => .halt .position .position .position

/-- The digit the canonical encoding writes for a mode (R103). -/
def digitOfMode : Mode → Nat
  | .position => 0
  | .immediate => 1

/-- `op + 100*m1 + 1000*m2 + 10000*m3` (R103). -/
def packWord (op : Nat) (m1 m2 m3 : Mode) : Word :=
  BitVec.ofNat 64 (op + 100 * digitOfMode m1 + 1000 * digitOfMode m2 + 10000 * digitOfMode m3)

/-- The canonical instruction word (R103): digit 0 for every operand the instruction lacks; a destination keeps its mode digit
(R104, log entry 10). -/
def encode (i : Instr) : Word :=
  match canonical i with
  | .add m1 m2 m3 => packWord 1 m1 m2 m3
  | .multiply m1 m2 m3 => packWord 2 m1 m2 m3
  | .input m1 m2 m3 => packWord 3 m1 m2 m3
  | .output m1 m2 m3 => packWord 4 m1 m2 m3
  | .jumpIfTrue m1 m2 m3 => packWord 5 m1 m2 m3
  | .jumpIfFalse m1 m2 m3 => packWord 6 m1 m2 m3
  | .lessThan m1 m2 m3 => packWord 7 m1 m2 m3
  | .equals m1 m2 m3 => packWord 8 m1 m2 m3
  | .halt m1 m2 m3 => packWord 99 m1 m2 m3

/-- The instruction and the operand words at a place in memory: the canonical word, then one word per operand (R90, R104). -/
def encodeWith (i : Instr) (operands : List Word) : List Word :=
  encode i :: operands.take (operandCount i)

/-- The four words an instruction of the table's numbering fills: 64 bits a word, the first word the least significant, and
every bit at or above `nbits` zero (log entry 7). -/
def tableWords (nbits w : Nat) : List Word :=
  [BitVec.ofNat 64 (w % 2 ^ nbits), BitVec.ofNat 64 (w % 2 ^ nbits / 2 ^ 64),
    BitVec.ofNat 64 (w % 2 ^ nbits / 2 ^ 128), BitVec.ofNat 64 (w % 2 ^ nbits / 2 ^ 192)]

/-- The instruction that stands at the head of a list of words: the decoder reads the first word only (R94). -/
def decodeWords : List Word → Option Instr
  | [] => none
  | w :: _ => (decode w).toOption

/-- What the decoder reads from an instruction of the table's numbering. -/
def decodeTableWord (nbits w : Nat) : Option Instr := decodeWords (tableWords nbits w)

end Sys2Proof
end

