-- ==== Sys2Proof/Machine/Ops.lean ====
section
/-! DEFINITION. The named operations over memory, the instruction pointer, the queues and the fault record. -/

namespace Sys2Proof.Machine

/-! ### Memory as data -/

/-- The architectural memory function `mem(a)` (10_state.md R33): 0 at an address not listed. -/
def Memory.read : Memory → Addr → Word
  | [], _ => 0
  | c :: m, a => if c.1 = a then c.2 else Memory.read m a

/-- The memory without its cell at `a`. -/
def Memory.erase (m : Memory) (a : Addr) : Memory := m.filter (fun c => c.1 != a)

/-- The cell put at its place in the rising order. -/
def Memory.place : Memory → Cell → Memory
  | [], c => [c]
  | b :: m, c => if c.1 < b.1 then c :: b :: m else b :: Memory.place m c

/-- `mem(a) = v` and every other address unchanged (20_memory.md R61); a zero is not listed. -/
def Memory.write (m : Memory) (a : Addr) (v : Word) : Memory :=
  if v = 0 then m.erase a else Memory.place (m.erase a) (a, v)

/-- The canonical form: addresses strictly rising, no listed zero. -/
def Memory.wf : Memory → Bool
  | [] => true
  | c :: m => c.2 != 0 && m.all (fun d => decide (c.1 < d.1)) && Memory.wf m

/-- The words written from address `a` upwards. -/
def Memory.writeAll : Memory → Addr → List Word → Memory
  | m, _, [] => m
  | m, a, v :: vs => Memory.writeAll (m.write a v) (a + 1) vs

/-- The memory that holds exactly the words of an image from address `a` (R49, R70). -/
def Memory.ofImage : Addr → List Word → Memory
  | _, [] => []
  | a, v :: vs => if v = 0 then Memory.ofImage (a + 1) vs else (a, v) :: Memory.ofImage (a + 1) vs

/-! ### The two parts of memory, as the spec names them (R31 to R33) -/

/-- The dense image as it stands now: the words at 0 to L - 1. -/
def State.image (s : State) : List Word := (List.range s.imageLen).map s.mem.read

/-- The sparse extension as it stands now, keyed at or above L. -/
def State.ext (s : State) (a : Addr) : Option Word :=
  if s.imageLen ≤ a then if s.mem.read a = 0 then none else some (s.mem.read a) else none

/-! ### Field updates -/

/-- The state with another memory. -/
def State.withMem (s : State) (m : Memory) : State := { s with mem := m }

/-- `ip <- a`. -/
def State.jumpTo (s : State) (a : Addr) : State := { s with ip := a }

/-- `ip <- ip + n` (10_state.md R35): a natural-number sum, which never wraps (R36). -/
def State.advance (s : State) (n : Nat) : State := { s with ip := s.ip + n }

/-- `status <- S`. -/
def State.withStatus (s : State) (st : Status) : State := { s with status := st }

/-- `inRd <- inRd + 1` (R41). -/
def State.consumeInput (s : State) : State := { s with inRd := s.inRd + 1 }

/-- `outQ <- outQ ++ [v]` (R42). -/
def State.emit (s : State) (v : Word) : State := { s with outQ := s.outQ ++ [v] }

/-- `inQ <- inQ ++ [v]` (R41). -/
def State.enqueueInput (s : State) (v : Word) : State := { s with inQ := s.inQ ++ [v] }

/-- `outRd <- outRd + 1` (R42). -/
def State.consumeOutput (s : State) : State := { s with outRd := s.outRd + 1 }

/-! ### Faults -/

/-- The cause codes of the fault kinds (60_exceptions.md R200). -/
def faultCode : FaultKind → Nat
  | .unknownOpcode _ => 1
  | .executeAfterHalt => 2
  | .negativeAddress _ => 3
  | .arithmeticOverflow _ _ => 4
  | .addressLimit _ => 5
  | .queueLimit => 6

/-- `raise F(info)` (R203): the fault record takes the kind and the ip; every other field stays. This is the whole of taking a
fault: there is no vector, no saved status and no return (R211, R212). -/
def raise (k : FaultKind) (s : State) : State := { s with fault := some (k, s.ip) }

/-- The end of an instruction's pseudocode: its final state, or the fault it raised, taken on the state the instruction began
with (40_engine.md R121: faults are precise; log entry 2). -/
def settle (s : State) (r : Except FaultKind State) : Host.Outcome State Fault Refusal :=
  match r with
  | .ok t => .next t
  | .error k => .next (raise k s)

/-! ### Memory accesses and addresses -/

/-- The address lies below ADDR_LIMIT, or no limit is set (00_scope.md R7). -/
def addrOk (s : State) (a : Addr) : Bool := s.cfg.addrLimit.all (fun n => decide (a < n))

/-- MemRead(a, 1) (20_memory.md R60). -/
def memRead (s : State) (a : Addr) : Except FaultKind Word :=
  if addrOk s a then .ok (s.mem.read a) else .error (.addressLimit a)

/-- MemWrite(a, 1, v) (20_memory.md R61). -/
def memWrite (s : State) (a : Addr) (v : Word) : Except FaultKind State :=
  if addrOk s a then .ok (s.withMem (s.mem.write a v)) else .error (.addressLimit a)

/-- toAddr (20_memory.md R66): a negative word is no address. -/
def toAddr (v : Word) : Except FaultKind Addr :=
  if v.toInt < 0 then .error (.negativeAddress v) else .ok v.toNat

/-! ### Queues -/

/-- How many input entries are unread (10_state.md R41). -/
def unreadInput (s : State) : Nat := s.inQ.length - s.inRd

/-- How many output entries are unread (10_state.md R43). -/
def unreadOutput (s : State) : Nat := s.outQ.length - s.outRd

/-- A queue with `unread` unread entries may take one more under QUEUE_LIMIT (00_scope.md R8). -/
def queueHasRoom (s : State) (unread : Nat) : Bool := s.cfg.queueLimit.all (fun n => decide (unread < n))

/-! ### Fetch -/

/-- Fetch and decode (40_engine.md R120): AddressLimit on the fetch, then UnknownOpcode on the decode (60_exceptions.md R208). -/
def fetch (s : State) : Except FaultKind Instr :=
  match memRead s s.ip with
  | .error k => .error k
  | .ok w =>
    match decode w with
    | .ok i => .ok i
    | .error (.unknownOpcode v) => .error (.unknownOpcode v)

/-- The state whose very next step runs the instruction of the table's numbering: its words stand at the ip, as construct's load
would leave them, and the engine runs (log entry 7). -/
def placeFetchWord (s : State) (nbits w : Nat) : State :=
  { s with mem := s.mem.writeAll s.ip (tableWords nbits w), status := .running, fault := none }

end Sys2Proof.Machine
end

