-- ==== Sys2Proof/Machine/Operands.lean ====
section
/-! DEFINITION. The operand forms (30_encoding.md rules R95 to R97). -/

namespace Sys2Proof.Machine

/-- Operand word k, the word at ip + k (R95). -/
def operandWord (s : State) (k : Nat) : Except FaultKind Word := memRead s (s.ip + k)

/-- The value of source operand k (R96): the operand word in Immediate mode, the word it addresses in Position mode. -/
def src (s : State) (m : Mode) (k : Nat) : Except FaultKind Word :=
  match operandWord s k with
  | .error f => .error f
  | .ok p =>
    match m with
    | .immediate => .ok p
    | .position =>
      match toAddr p with
      | .error f => .error f
      | .ok a => memRead s a

/-- The address of destination operand k (R97): the operand word, whatever the mode digit says. -/
def dst (s : State) (k : Nat) : Except FaultKind Addr :=
  match operandWord s k with
  | .error f => .error f
  | .ok p => toAddr p

end Sys2Proof.Machine
end

