-- ==== Sys2Proof/Machine/Arithmetic.lean ====
section
/-! DEFINITION. Add, Multiply, LessThan and Equals (41_arithmetic.md). -/

namespace Sys2Proof.Machine

/-- The shape the four share (41_arithmetic.md, opening; phases of 40_engine.md R120): both sources, the destination, the
computation, the write, ip + 4. The mode of the destination is not consulted (R97). -/
def threeOperand (compute : Config → Word → Word → Except FaultKind Word) (m1 m2 : Mode) (s : State) :
    Except FaultKind State := do
  let a ← src s m1 1
  let b ← src s m2 2
  let d ← dst s 3
  let r ← compute s.cfg a b
  let t ← memWrite s d r
  .ok (t.advance 4)

/-- `a + b` on mathematical integers, brought into Word by the policy (R150, R154). -/
def addResult (c : Config) (a b : Word) : Except FaultKind Word := arithResult c a b (a.toInt + b.toInt)

/-- `a * b` on mathematical integers, brought into Word by the policy (R151, R154). -/
def mulResult (c : Config) (a b : Word) : Except FaultKind Word := arithResult c a b (a.toInt * b.toInt)

/-- 1 if a < b, signed, else 0 (R152). -/
def ltResult (_ : Config) (a b : Word) : Except FaultKind Word := .ok (boolWord (decide (a.toInt < b.toInt)))

/-- 1 if a = b, else 0 (R153). -/
def eqResult (_ : Config) (a b : Word) : Except FaultKind Word := .ok (boolWord (decide (a.toInt = b.toInt)))

/-- Add (R150). -/
def execAdd (m1 m2 _m3 : Mode) (s : State) : Host.Outcome State Fault Refusal :=
  settle s (threeOperand addResult m1 m2 s)

/-- Multiply (R151). -/
def execMultiply (m1 m2 _m3 : Mode) (s : State) : Host.Outcome State Fault Refusal :=
  settle s (threeOperand mulResult m1 m2 s)

/-- LessThan (R152). -/
def execLessThan (m1 m2 _m3 : Mode) (s : State) : Host.Outcome State Fault Refusal :=
  settle s (threeOperand ltResult m1 m2 s)

/-- Equals (R153). -/
def execEquals (m1 m2 _m3 : Mode) (s : State) : Host.Outcome State Fault Refusal :=
  settle s (threeOperand eqResult m1 m2 s)

end Sys2Proof.Machine
end

