-- ==== Sys2Proof/Machine/Control.lean ====
section
/-! DEFINITION. JumpIfTrue, JumpIfFalse and Halt (43_control.md). -/

namespace Sys2Proof.Machine

/-- The shape of both jumps (R185, R186, R188): both sources are resolved first; the target passes through toAddr only when the
jump is taken; otherwise ip + 3. -/
def jumpWhen (taken : Word → Bool) (m1 m2 : Mode) (s : State) : Except FaultKind State := do
  let c ← src s m1 1
  let t ← src s m2 2
  if taken c then do
    let a ← toAddr t
    .ok (s.jumpTo a)
  else .ok (s.advance 3)

/-- JumpIfTrue (R185). -/
def execJumpIfTrue (m1 m2 _m3 : Mode) (s : State) : Host.Outcome State Fault Refusal :=
  settle s (jumpWhen wordIsTrue m1 m2 s)

/-- JumpIfFalse (R186). -/
def execJumpIfFalse (m1 m2 _m3 : Mode) (s : State) : Host.Outcome State Fault Refusal :=
  settle s (jumpWhen (fun c => !wordIsTrue c) m1 m2 s)

/-- Halt (R190): the status becomes Halted; the ip stays; no operand word is read. -/
def execHalt (_m1 _m2 _m3 : Mode) (s : State) : Host.Outcome State Fault Refusal := .next (s.withStatus .halted)

end Sys2Proof.Machine
end

