-- ==== Sys2Proof/Machine/InputOutput.lean ====
section
/-! DEFINITION. Input and Output (42_io.md). -/

namespace Sys2Proof.Machine

/-- Input's pseudocode (R170): the destination first; with no unread entry the status becomes WaitingForInput and nothing else
changes; otherwise the oldest unread entry is written and consumed, and ip + 2. -/
def inputEffect (s : State) : Except FaultKind State := do
  let d ← dst s 1
  match s.inQ[s.inRd]? with
  | none => .ok (s.withStatus .waitingForInput)
  | some v => do
    let t ← memWrite s d v
    .ok (t.consumeInput.advance 2)

/-- Output's pseudocode (R171): the source, the QUEUE_LIMIT check, the append, ip + 2. -/
def outputEffect (m1 : Mode) (s : State) : Except FaultKind State := do
  let a ← src s m1 1
  if queueHasRoom s (unreadOutput s) then .ok ((s.emit a).advance 2) else .error .queueLimit

/-- Input (R170). -/
def execInput (_m1 _m2 _m3 : Mode) (s : State) : Host.Outcome State Fault Refusal := settle s (inputEffect s)

/-- Output (R171). -/
def execOutput (m1 _m2 _m3 : Mode) (s : State) : Host.Outcome State Fault Refusal := settle s (outputEffect m1 s)

end Sys2Proof.Machine
end

