-- ==== Sys2Proof/Machine/Engine.lean ====
section
/-! DEFINITION. The engine's step and its run loop (40_engine.md rules R120 to R133). -/

namespace Sys2Proof.Machine

/-- One step (R120): fetch, decode, execute; a fault of the fetch or the decode is taken here. -/
def engineStep (s : State) : Host.Outcome State Fault Refusal :=
  match fetch s with
  | .error k => .next (raise k s)
  | .ok i => exec i s

/-- The loop of R132 goes on: the status is Running and no fault was raised. -/
def runContinues (s : State) : Bool := s.status == .running && s.fault.isNone

/-- The loop of R132 under fuel (R124): `none` means only that the executor ran out of fuel, which is no outcome of the
hardware. -/
def runLoop : Nat → State → Option (Host.Outcome State Fault Refusal)
  | 0, _ => none
  | n + 1, s =>
    match engineStep s with
    | .next t => if runContinues t then runLoop n t else some (.next t)
    | .fault f => some (.fault f)
    | .refused r => some (.refused r)

/-- run_until_blocked_or_halted (R132), refused while a fault is set (60_exceptions.md R206). -/
def runCommand (fuel : Nat) (s : State) : Option (Host.Outcome State Fault Refusal) :=
  if s.fault.isSome then some (.refused .commandWhileFaulted)
  else
    match s.status with
    | .halted => some (.next (raise .executeAfterHalt s))
    | .running => runLoop fuel s
    | .waitingForInput => runLoop fuel (s.withStatus .running)

/-- One step of the machine: what run_until_blocked_or_halted does first from this state (log entry 1). In a Halted instance it
raises ExecuteAfterHalt (R38, R132, R202); in a waiting one it sets Running and retries the Input (R133); after a fault no step
runs any more (R120, R203). -/
def stepOnce (s : State) : Host.Outcome State Fault Refusal :=
  match s.fault with
  | some (k, a) => .fault (.aborted k a)
  | none =>
    match s.status with
    | .halted => .next (raise .executeAfterHalt s)
    | .running => engineStep s
    | .waitingForInput => engineStep (s.withStatus .running)

end Sys2Proof.Machine
end

