-- ==== Sys2Proof/Machine/Step.lean ====
section
/-! DEFINITION. The machine's step, and the placing of one instruction where the step fetches it. -/

namespace Sys2Proof.Machine

/-- One step of one instance. -/
def step (s : State) : Host.Outcome State Fault Refusal := Sys2Proof.Machine.stepOnce s

/-- The state with the instruction of the table's numbering at the ip, so that the very next step runs it (log entry 7). -/
def State.withFetchWord (s : State) (nbits w : Nat) : State := Sys2Proof.Machine.placeFetchWord s nbits w

end Sys2Proof.Machine
end

