-- ==== Sys2Proof/Machine/Assembler.lean ====
section
/-! DEFINITION. The assembler of 30_encoding.md rules R104 and R105, on parsed statements: notation, with the encodings as the
normative form (92_eei_decisions.md D15; log entry 13). -/

namespace Sys2Proof.Machine

/-- The mnemonic of each instruction (R104), as spec/opcode_table.json spells it. -/
def mnemonicOf : Instr → String
  | .add _ _ _ => "add"
  | .multiply _ _ _ => "mul"
  | .input _ _ _ => "in"
  | .output _ _ _ => "out"
  | .jumpIfTrue _ _ _ => "jt"
  | .jumpIfFalse _ _ _ => "jf"
  | .lessThan _ _ _ => "lt"
  | .equals _ _ _ => "eq"
  | .halt _ _ _ => "hlt"

/-- The value written in an operand: a number, or a label, which stands for its address (R104). -/
inductive AsmValue where
  | num (v : Word)
  | label (name : String)
  deriving DecidableEq, Repr

/-- An operand: `#v` is Immediate, `[a]` is Position (R104). -/
structure AsmOperand where
  mode : Mode
  value : AsmValue
  deriving DecidableEq, Repr

/-- A statement: the nine instructions and the three pseudo-instructions (R104, R105). -/
inductive AsmStatement where
  | add (a b d : AsmOperand)
  | mul (a b d : AsmOperand)
  | inp (d : AsmOperand)
  | out (a : AsmOperand)
  | jt (c t : AsmOperand)
  | jf (c t : AsmOperand)
  | lt (a b d : AsmOperand)
  | eq (a b d : AsmOperand)
  | hlt
  | jmp (t : AsmOperand)
  | mov (s d : AsmOperand)
  | dat (vs : List Word)
  deriving DecidableEq, Repr

/-- A line: a statement with the label of its first word, if it has one. Two labels of one word, or one after the last word, are
written with a `dat` of no words. -/
structure AsmLine where
  label : Option String
  statement : AsmStatement
  deriving DecidableEq, Repr

/-- `#v`. -/
def immediateNum (v : Word) : AsmOperand := { mode := .immediate, value := .num v }

/-- The instruction and operands a statement stands for, after the expansions of R105; none for `dat`. -/
def expand : AsmStatement → Option (Instr × List AsmValue)
  | .add a b d => some (.add a.mode b.mode d.mode, [a.value, b.value, d.value])
  | .mul a b d => some (.multiply a.mode b.mode d.mode, [a.value, b.value, d.value])
  | .inp d => some (.input d.mode .position .position, [d.value])
  | .out a => some (.output a.mode .position .position, [a.value])
  | .jt c t => some (.jumpIfTrue c.mode t.mode .position, [c.value, t.value])
  | .jf c t => some (.jumpIfFalse c.mode t.mode .position, [c.value, t.value])
  | .lt a b d => some (.lessThan a.mode b.mode d.mode, [a.value, b.value, d.value])
  | .eq a b d => some (.equals a.mode b.mode d.mode, [a.value, b.value, d.value])
  | .hlt => some (.halt .position .position .position, [])
  | .jmp t => some (.jumpIfTrue .immediate t.mode .position, [.num 1, t.value])
  | .mov s d => some (.add s.mode .immediate d.mode, [s.value, .num 0, d.value])
  | .dat _ => none

/-- A value as the syntax of R104 writes it: a decimal number or a label. -/
def textOfValue : AsmValue → String
  | .num v => toString v.toInt
  | .label n => n

/-- An operand as the syntax writes it: `#v` or `[a]` (R104). -/
def textOfOperand (o : AsmOperand) : String :=
  match o.mode with
  | .immediate => "#" ++ textOfValue o.value
  | .position => "[" ++ textOfValue o.value ++ "]"

/-- Operands with commas between them. -/
def textOfOperands (os : List AsmOperand) : String := ", ".intercalate (os.map textOfOperand)

/-- A statement as the syntax of R104 and R105 writes it. -/
def textOfStatement : AsmStatement → String
  | .add a b d => "add " ++ textOfOperands [a, b, d]
  | .mul a b d => "mul " ++ textOfOperands [a, b, d]
  | .inp d => "in " ++ textOfOperands [d]
  | .out a => "out " ++ textOfOperands [a]
  | .jt c t => "jt " ++ textOfOperands [c, t]
  | .jf c t => "jf " ++ textOfOperands [c, t]
  | .lt a b d => "lt " ++ textOfOperands [a, b, d]
  | .eq a b d => "eq " ++ textOfOperands [a, b, d]
  | .hlt => "hlt"
  | .jmp t => "jmp " ++ textOfOperands [t]
  | .mov s d => "mov " ++ textOfOperands [s, d]
  | .dat vs => "dat " ++ ", ".intercalate (vs.map fun v => toString v.toInt)

/-- A line as the syntax writes it: `name:` before the statement where it has a label (R104). -/
def textOfLine (l : AsmLine) : String :=
  match l.label with
  | some n => n ++ ": " ++ textOfStatement l.statement
  | none => textOfStatement l.statement

/-- The literal words of a `dat`; the other statements have none (R105). -/
def dataWords : AsmStatement → List Word
  | .dat vs => vs
  | _ => []

/-- How many words a statement fills (R101, R105). -/
def sizeOfStatement (st : AsmStatement) : Nat :=
  match expand st with
  | some (i, _) => lengthOf i
  | none => (dataWords st).length

/-- The address of each label, the first line standing at `a`: that of the line's first word (R104). R104 does not say what a
label defined twice stands for: every definition is kept here, in the order of the lines, and `resolveValue` takes the first
(DESIGN CHOICE, log entry 16). -/
def labelTable : Addr → List AsmLine → List (String × Addr)
  | _, [] => []
  | a, l :: ls =>
    match l.label with
    | some n => (n, a) :: labelTable (a + sizeOfStatement l.statement) ls
    | none => labelTable (a + sizeOfStatement l.statement) ls

/-- An operand's word (R104): the number, or the address of the label. Where the table holds a label more than once the first entry
counts, and a label it does not hold has no word, so that the program does not assemble (DESIGN CHOICE, log entry 16: R104 says
neither). -/
def resolveValue (table : List (String × Addr)) : AsmValue → Option Word
  | .num v => some v
  | .label n => (table.lookup n).map (BitVec.ofNat 64)

/-- The words of a list of operands, if every label of it is known. -/
def resolveAll (table : List (String × Addr)) : List AsmValue → Option (List Word)
  | [] => some []
  | v :: vs =>
    match resolveValue table v, resolveAll table vs with
    | some w, some ws => some (w :: ws)
    | _, _ => none

/-- A statement's words: the canonical encoding, then the operand words in order (R103, R104). -/
def assembleStatement (table : List (String × Addr)) (st : AsmStatement) : Option (List Word) :=
  match expand st with
  | some (i, vs) => (resolveAll table vs).map (encodeWith i)
  | none => some (dataWords st)

/-- The words of a list of lines, in order. -/
def assembleLines (table : List (String × Addr)) : List AsmLine → Option (List Word)
  | [] => some []
  | l :: ls =>
    match assembleStatement table l.statement, assembleLines table ls with
    | some ws, some rest => some (ws ++ rest)
    | _, _ => none

/-- A program's image, from address 0. -/
def assemble (ls : List AsmLine) : Option (List Word) := assembleLines (labelTable 0 ls) ls

end Sys2Proof.Machine
end

