-- ==== Sys2Proof/Machine/HostCommands.lean ====
section
/-! DEFINITION. The host commands of 40_engine.md rules R130 to R140 on one instance. -/

namespace Sys2Proof.Machine

/-- construct(image) (R130, 10_state.md R49) of an instance with the host's configuration: it executes nothing and validates
nothing. -/
def construct (c : Config) (image : List Word) : State :=
  { State.reset with cfg := c, imageLen := image.length, mem := Memory.ofImage 0 image }

/-- A host command's answer, refused while a fault is set (60_exceptions.md R206). -/
def unlessFaulted {α : Type} (s : State) (x : Host.Outcome α Fault Refusal) : Host.Outcome α Fault Refusal :=
  if s.fault.isSome then .refused .commandWhileFaulted else x

/-- submit_input(v) (R131). -/
def submitInput (v : Word) (s : State) : Host.Outcome State Fault Refusal :=
  unlessFaulted s
    (if queueHasRoom s (unreadInput s) then
      .next ((s.enqueueInput v).withStatus (if s.status = .waitingForInput then .running else s.status))
    else .refused .inputQueueFull)

/-- has_unread_output() (R134). -/
def hasUnreadOutput (s : State) : Bool := decide (s.outRd < s.outQ.length)

/-- take_output() (R135): the oldest unread value, or none. -/
def takeOutput (s : State) : State × Option Word :=
  match s.outQ[s.outRd]? with
  | some v => (s.consumeOutput, some v)
  | none => (s, none)

/-- peek_last_output() (R136). -/
def peekLastOutput (s : State) : Option Word := s.outQ[s.outQ.length - 1]?

/-- is_halted() (R137). -/
def isHalted (s : State) : Bool := s.status == .halted

/-- is_halted_or_blocked() (R138). -/
def isHaltedOrBlocked (s : State) : Bool := s.status == .halted || s.status == .waitingForInput

/-- mem_peek(a) (R139): it never raises, and answers 0 at or above ADDR_LIMIT. -/
def memPeek (s : State) (a : Addr) : Word := if addrOk s a then s.mem.read a else 0

/-- Any host command on a constructed instance (R140): the state after it and what it returns. `none` only where the executor of
run ran out of fuel (R124). -/
def hostCommand (fuel : Nat) (c : HostCommand) (s : State) : Option (Host.Outcome (State × Reply) Fault Refusal) :=
  match c with
  | .submitInput v =>
    match submitInput v s with
    | .next t => some (.next (t, .nothing))
    | .fault f => some (.fault f)
    | .refused r => some (.refused r)
  | .run =>
    match runCommand fuel s with
    | none => none
    | some (.next t) => some (.next (t, .nothing))
    | some (.fault f) => some (.fault f)
    | some (.refused r) => some (.refused r)
  | .hasUnreadOutput => some (unlessFaulted s (.next (s, .bool (hasUnreadOutput s))))
  | .takeOutput => some (unlessFaulted s (.next ((takeOutput s).1, .optWord (takeOutput s).2)))
  | .peekLastOutput => some (unlessFaulted s (.next (s, .optWord (peekLastOutput s))))
  | .isHalted => some (unlessFaulted s (.next (s, .bool (isHalted s))))
  | .isHaltedOrBlocked => some (unlessFaulted s (.next (s, .bool (isHaltedOrBlocked s))))
  | .memPeek a => some (unlessFaulted s (.next (s, .word (memPeek s a))))

end Sys2Proof.Machine
end

