-- ==== Sys2Proof/Machine/Network.lean ====
section
/-! DEFINITION. Several instances (60_exceptions.md rules R225 to R227) and the three host patterns over them (R228 to R230),
which are host programs and no part of the block (00_scope.md R5). -/

namespace Sys2Proof.Machine

/-- The instances the host has constructed; a position in the list is the host's own handle (R225). -/
abbrev Network := List State

/-- A further instance (R225). -/
def constructInto (c : Config) (image : List Word) (net : Network) : Network := net ++ [construct c image]

/-- The next host action after an answer that is a next state; any other answer ends the host's program. -/
def andThen {α β : Type} (x : Option (Host.Outcome α Fault Refusal)) (f : α → Option (Host.Outcome β Fault Refusal)) :
    Option (Host.Outcome β Fault Refusal) :=
  match x with
  | none => none
  | some (.next a) => f a
  | some (.fault e) => some (.fault e)
  | some (.refused r) => some (.refused r)

/-- A host command on instance `i`: no other instance changes (R226). -/
def networkCommand (fuel i : Nat) (c : HostCommand) (net : Network) :
    Option (Host.Outcome (Network × Reply) Fault Refusal) :=
  match net[i]? with
  | none => some (.refused .noSuchInstance)
  | some s => andThen (hostCommand fuel c s) fun p => some (.next (net.set i p.1, p.2))

/-- Output of instance `i` forwarded to instance `j` in emission order until take_output answers none (R226, R229); at most
`budget` calls of take_output. -/
def forward : Nat → Nat → Nat → Network → Option (Host.Outcome Network Fault Refusal)
  | 0, _, _, _ => none
  | budget + 1, i, j, net =>
    andThen (networkCommand 0 i .takeOutput net) fun p =>
      match p.2 with
      | .optWord (some v) =>
        andThen (networkCommand 0 j (.submitInput v) p.1) fun q => forward budget i j q.1
      | _ => some (.next p.1)

/-- All newly produced output of `i` into `j`: the calls take_output makes are one more than the unread entries. -/
def forwardAll (i j : Nat) (net : Network) : Option (Host.Outcome Network Fault Refusal) :=
  match net[i]? with
  | none => some (.refused .noSuchInstance)
  | some s => forward (unreadOutput s + 1) i j net

/-- One stage of a linear pipeline: what its instance is constructed from, and its stage input. R228 does not say whether the
stages share one image; R225 allows the same and different ones, so each stage names its own image and configuration (log entry
17). -/
structure Stage where
  cfg : Config
  image : List Word
  input : Word
  deriving DecidableEq, Repr

/-- One stage of a linear pipeline (R228): its input, then the carried value, a run, its final output. The final output is the
last value emitted (log entry 17). -/
def pipelineStage (fuel : Nat) (p : Stage) (carried : Word) : Option (Host.Outcome (Option Word) Fault Refusal) :=
  andThen (some (submitInput p.input (construct p.cfg p.image))) fun s =>
    andThen (some (submitInput carried s)) fun t =>
      andThen (runCommand fuel t) fun u => some (unlessFaulted u (.next (peekLastOutput u)))

/-- A linear pipeline (R228): a single pass in stage order. R228 does not say what is carried on from a stage that emitted
nothing; the model ends the pass there with none (log entry 17). -/
def linearPipeline (fuel : Nat) : List Stage → Word → Option (Host.Outcome (Option Word) Fault Refusal)
  | [], carried => some (.next (some carried))
  | p :: ps, carried =>
    andThen (pipelineStage fuel p carried) fun o =>
      match o with
      | none => some (.next none)
      | some v => linearPipeline fuel ps v

/-- The instances of a feedback ring, each primed with its phase setting (R229). -/
def ringInstances (c : Config) (image : List Word) : List Word → Option (Host.Outcome Network Fault Refusal)
  | [] => some (.next [])
  | p :: ps =>
    andThen (some (submitInput p (construct c image))) fun s =>
      andThen (ringInstances c image ps) fun net => some (.next (s :: net))

/-- The loop of R229 over a ring of `n` instances, at most `turns` runs: run, forward, and the answer when the last instance has
halted. -/
def ringLoop (fuel n : Nat) : Nat → Nat → Network → Option (Host.Outcome (Option Word) Fault Refusal)
  | 0, _, _ => none
  | turns + 1, i, net =>
    andThen (networkCommand fuel i .run net) fun p =>
      andThen (forwardAll i ((i + 1) % n) p.1) fun net' =>
        match net'[n - 1]? with
        | none => some (.refused .noSuchInstance)
        | some last =>
          if i = n - 1 then
            andThen (some (unlessFaulted last (.next (isHalted last)))) fun h =>
              if h then some (unlessFaulted last (.next (peekLastOutput last)))
              else ringLoop fuel n turns ((i + 1) % n) net'
          else ringLoop fuel n turns ((i + 1) % n) net'

/-- A feedback ring (R229) of `phases.length` instances; one of no instances is refused, since instance 0 does not exist. -/
def feedbackRing (fuel turns : Nat) (c : Config) (image phases : List Word) (initial : Word) :
    Option (Host.Outcome (Option Word) Fault Refusal) :=
  andThen (ringInstances c image phases) fun net =>
    andThen (networkCommand 0 0 (.submitInput initial) net) fun p => ringLoop fuel phases.length turns 0 p.1

/-- All output available now, taken in order, by at most `budget` calls of take_output (R230). -/
def takeAll : Nat → State → State × List Word
  | 0, s => (s, [])
  | budget + 1, s =>
    match takeOutput s with
    | (t, some v) => ((takeAll budget t).1, v :: (takeAll budget t).2)
    | (t, none) => (t, [])

/-- The words of a drain in groups of `n`, `cur` being the group begun. The last group is shorter where the words do not fill it
(log entry 17); a size of 0 groups as a size of 1 does. -/
def groupsFrom (n : Nat) : List Word → List Word → List (List Word)
  | cur, [] => if cur.isEmpty then [] else [cur]
  | cur, w :: ws =>
    if n ≤ cur.length + 1 then (cur ++ [w]) :: groupsFrom n [] ws else groupsFrom n (cur ++ [w]) ws

/-- The fixed-size groups a controller reads output in (R230). -/
def groupsOf (n : Nat) (ws : List Word) : List (List Word) := groupsFrom n [] ws

/-- What a controller observes on a turn: the output drained, in its groups, and what the observers of 40_engine.md R134 and R136
to R138 answer after the drain. -/
structure Observation where
  groups : List (List Word)
  unread : Bool
  lastOutput : Option Word
  halted : Bool
  haltedOrBlocked : Bool
  deriving DecidableEq, Repr

/-- The observation of an instance from which `ws` was drained. -/
def observe (n : Nat) (ws : List Word) (s : State) : Observation :=
  { groups := groupsOf n ws
    unread := hasUnreadOutput s
    lastOutput := peekLastOutput s
    halted := isHalted s
    haltedOrBlocked := isHaltedOrBlocked s }

/-- The controller of an interactive loop (R230): the size of its groups, and its turn, in which it updates what it keeps from
turn to turn (a tracked counter, a screen) and names the one input to submit, or none to stop. `σ` is the host program's own
state, no state of the block. -/
structure Controller (σ : Type) where
  groupSize : Nat
  turn : σ → Observation → σ × Option Word

/-- An interactive control loop (R230), from the state after a run: drain all available output, let the controller interpret it,
submit exactly one input and run again. The loop stops where the controller says so, on anything it observes: the drained values,
what it kept over the turns, or Halted; not on Halted alone (40_engine.md R142). It answers the instance and what the controller
holds; at most `turns` turns. -/
def interactiveLoop {σ : Type} (fuel : Nat) (c : Controller σ) :
    Nat → σ → State → Option (Host.Outcome (State × σ) Fault Refusal)
  | 0, _, _ => none
  | turns + 1, k, s =>
    andThen (some (unlessFaulted s (.next (takeAll (unreadOutput s) s)))) fun p =>
      match c.turn k (observe c.groupSize p.2 p.1) with
      | (k', none) => some (.next (p.1, k'))
      | (k', some v) =>
        andThen (some (submitInput v p.1)) fun t =>
          andThen (runCommand fuel t) fun u => interactiveLoop fuel c turns k' u

end Sys2Proof.Machine
end

