-- ==== Sys2Proof/Safety.lean ====
section
/-! DEFINITION. The terms claims are stated in: what an operand reads, why an operand faults, the invariant of reachable states
(10_state.md rule R48), runs as finite step sequences (40_engine.md rule R124) and the reachable states. -/

namespace Sys2Proof.Machine

/-- The word at ip + k (30_encoding.md R95), as data. -/
def operandAt (s : State) (k : Nat) : Word := s.mem.read (s.ip + k)

/-- Source operand k reads `v` without a fault (30_encoding.md R96). -/
def SourceReads (s : State) (m : Mode) (k : Nat) (v : Word) : Prop :=
  addrOk s (s.ip + k) = true ∧
    ((m = .immediate ∧ v = operandAt s k) ∨
      (m = .position ∧ 0 ≤ (operandAt s k).toInt ∧ addrOk s (operandAt s k).toNat = true ∧
        v = s.mem.read (operandAt s k).toNat))

/-- Destination operand k is the address `d` without a fault (30_encoding.md R97). -/
def DestReads (s : State) (k : Nat) (d : Addr) : Prop :=
  addrOk s (s.ip + k) = true ∧ 0 ≤ (operandAt s k).toInt ∧ (d : Int) = (operandAt s k).toInt

/-- Source operand k raises `f`: in this order the read of the operand word, its use as an address, the read of the value
(60_exceptions.md R208, item 3). -/
def SourceFaults (s : State) (m : Mode) (k : Nat) (f : FaultKind) : Prop :=
  (addrOk s (s.ip + k) = false ∧ f = .addressLimit (s.ip + k)) ∨
    (addrOk s (s.ip + k) = true ∧ m = .position ∧ (operandAt s k).toInt < 0 ∧ f = .negativeAddress (operandAt s k)) ∨
    (addrOk s (s.ip + k) = true ∧ m = .position ∧ 0 ≤ (operandAt s k).toInt ∧ addrOk s (operandAt s k).toNat = false ∧
      f = .addressLimit (operandAt s k).toNat)

/-- Destination operand k raises `f` (60_exceptions.md R208, item 4). -/
def DestFaults (s : State) (k : Nat) (f : FaultKind) : Prop :=
  (addrOk s (s.ip + k) = false ∧ f = .addressLimit (s.ip + k)) ∨
    (addrOk s (s.ip + k) = true ∧ (operandAt s k).toInt < 0 ∧ f = .negativeAddress (operandAt s k))

/-- The three modes of a decoded instruction (30_encoding.md R92). -/
def modesOf : Instr → Mode × Mode × Mode
  | .add m1 m2 m3 => (m1, m2, m3)
  | .multiply m1 m2 m3 => (m1, m2, m3)
  | .input m1 m2 m3 => (m1, m2, m3)
  | .output m1 m2 m3 => (m1, m2, m3)
  | .jumpIfTrue m1 m2 m3 => (m1, m2, m3)
  | .jumpIfFalse m1 m2 m3 => (m1, m2, m3)
  | .lessThan m1 m2 m3 => (m1, m2, m3)
  | .equals m1 m2 m3 => (m1, m2, m3)
  | .halt m1 m2 m3 => (m1, m2, m3)

/-- The opcode numbers of 30_encoding.md R100. -/
def knownOpcodes : List Nat := [1, 2, 3, 4, 5, 6, 7, 8, 99]

/-- The four instructions that write a third operand (41_arithmetic.md, opening). -/
def threeOperandInstrs (m1 m2 m3 : Mode) : List Instr :=
  [.add m1 m2 m3, .multiply m1 m2 m3, .lessThan m1 m2 m3, .equals m1 m2 m3]

/-- The word decodes to Output. -/
def isOutputWord (w : Word) : Bool :=
  match decode w with
  | .ok (.output _ _ _) => true
  | _ => false

/-- The word decodes to Input. -/
def isInputWord (w : Word) : Bool :=
  match decode w with
  | .ok (.input _ _ _) => true
  | _ => false

/-- The word decodes to Halt. -/
def isHaltWord (w : Word) : Bool :=
  match decode w with
  | .ok (.halt _ _ _) => true
  | _ => false

/-- The invariant of every reachable state: the four clauses of 10_state.md R48 (an inference the spec marks as its own), and
two of the model's own: the canonical form of memory (log entry 4), and that a waiting Input could be fetched under ADDR_LIMIT
(`waiting_below_limit`, log entry 18). -/
structure Coherent (s : State) : Prop where
  mem_wf : s.mem.wf = true
  input_cursor : s.inRd ≤ s.inQ.length
  output_cursor : s.outRd ≤ s.outQ.length
  waiting_drained : s.status = .waitingForInput → s.inRd = s.inQ.length
  waiting_at_input : s.status = .waitingForInput →
    isInputWord (s.mem.read s.ip) = true ∧ 0 ≤ (s.mem.read (s.ip + 1)).toInt
  waiting_below_limit : s.status = .waitingForInput → addrOk s s.ip = true ∧ addrOk s (s.ip + 1) = true
  halted_at_halt : s.status = .halted → s.fault = none → isHaltWord (s.mem.read s.ip) = true

/-- The run loop as a finite sequence of steps (40_engine.md R124, R132): it ends after the first step that leaves the status
Running or raises a fault. -/
inductive LoopEnds : State → State → Prop where
  | last {s t : State} : engineStep s = .next t → runContinues t = false → LoopEnds s t
  | more {s t u : State} : engineStep s = .next t → runContinues t = true → LoopEnds t u → LoopEnds s u

/-- A call of run_until_blocked_or_halted in `s` returns with the state `t` (40_engine.md R142): some amount of fuel suffices. -/
def RunReturns (s t : State) : Prop := ∃ fuel, runCommand fuel s = some (.next t)

/-- The states an instance can be in: after construct, after a step of a run, after a host command. Commands between two steps of
one run, which the spec does not allow, only add states (log entry 11). -/
inductive Reachable : State → Prop where
  | construct (c : Config) (image : List Word) : Reachable (construct c image)
  | step {s t : State} : Reachable s → step s = .next t → Reachable t
  | command {s t : State} (fuel : Nat) (c : HostCommand) (r : Reply) :
      Reachable s → hostCommand fuel c s = some (.next (t, r)) → Reachable t

/-- The statement is written as `text`, stands for the instruction `i` with the operands `vs`, and assembles, exactly where every
operand has a word under the table of labels, to the canonical word of `i` and the operands' words in order, which decode to `i`
(30_encoding.md R103, R104). That it assembles nowhere else, an operand without a word being one whose label has no definition, is
the model's choice (log entry 16). -/
def AssemblesAs (st : AsmStatement) (text : String) (i : Instr) (vs : List AsmValue) : Prop :=
  textOfStatement st = text ∧ expand st = some (i, vs) ∧ i.wellFormed = true ∧
    ∀ (table : List (String × Addr)) (ws : List Word),
      (assembleStatement table st = some ws ↔
        ∃ ops : List Word, vs.map (resolveValue table) = ops.map some ∧ ws = encode i :: ops) ∧
      (assembleStatement table st = some ws → ws.length = lengthOf i ∧ decodeWords ws = some i)

/-- The state with other words in place of the consumed input entries (10_state.md R47). -/
def withConsumedInput (s : State) (p : List Word) (n : Nat) : State := { s with inQ := p ++ s.inQ.drop n }

/-- The state with other words in place of the consumed output entries (10_state.md R47). -/
def withConsumedOutput (s : State) (p : List Word) (n : Nat) : State := { s with outQ := p ++ s.outQ.drop n }

/-- A safe run: every state of it is without a fault record. -/
def Safe (s : State) : Prop := s.fault = none

end Sys2Proof.Machine
end

