-- ==== Sys2Proof/Certificates/Slice0/Obligations.lean ====
section
/-! DEFINITION. The statements for the provers. Each docstring names the rule of spec/ it formalises; where a clause rests on a
decision or an inference the spec marks as its own (D<n> of 92_eei_decisions.md, or a rule marked derived), the docstring says so
and the statement's basis is 'derived'. -/

open Sys2Proof Sys2Proof.Machine

/-! ### Encoding (30_encoding.md) -/

/-- The worked decodings of R106 (derived by the spec), the words 1106, 1107, 1108 of the inferred opcodes (D14, log entry 9), and
the refused words 0, 9 and 98 of R102. -/
def Obligations.WrittenWordsDecode : Prop :=
  decode 1 = .ok (.add .position .position .position) ∧
    decode 3 = .ok (.input .position .position .position) ∧
    decode 4 = .ok (.output .position .position .position) ∧
    decode 99 = .ok (.halt .position .position .position) ∧
    decode 104 = .ok (.output .immediate .position .position) ∧
    decode 1001 = .ok (.add .position .immediate .position) ∧
    decode 1002 = .ok (.multiply .position .immediate .position) ∧
    decode 1005 = .ok (.jumpIfTrue .position .immediate .position) ∧
    decode 1106 = .ok (.jumpIfFalse .immediate .immediate .position) ∧
    decode 1107 = .ok (.lessThan .immediate .immediate .position) ∧
    decode 1108 = .ok (.equals .immediate .immediate .position) ∧
    decode 0 = .error (.unknownOpcode 0) ∧ decode 9 = .error (.unknownOpcode 9) ∧
    decode 98 = .error (.unknownOpcode 98)

/-- R103 (derived by the spec): the canonical word of every well-formed instruction decodes to it, and it is the smallest word
that decodes to an instruction of that canonical form. -/
def Obligations.DecodeAgreesWithEncode : Prop :=
  ∀ i : Instr, i.wellFormed = true →
    decode (encode i) = .ok i ∧
      ∀ (w : Word) (j : Instr), decode w = .ok j → canonical j = i → (encode i).toNat ≤ w.toNat

/-- R91, R92, R102: the opcode of a word that is not negative is w mod 100, it names the instruction, and every other word is
refused by name. The refusal of negative words is the spec's decision D4; the numbers 6, 7, 8 are D14 (log entry 9). -/
def Obligations.OpcodeSelectsInstruction : Prop :=
  ∀ w : Word,
    (w.toInt < 0 → decode w = .error (.unknownOpcode w)) ∧
      (0 ≤ w.toInt →
        (w.toNat % 100 ∈ knownOpcodes → ∃ i, decode w = .ok i ∧ opcodeOf i = w.toNat % 100) ∧
          (w.toNat % 100 ∉ knownOpcodes → decode w = .error (.unknownOpcode w)))

/-- R93 at the digit places of R90: in every word with a known opcode a mode digit 0 selects Position and every other digit
Immediate, at each of the three places, and no mode digit makes the decoder refuse the word. That words with w mod 100 = 6, 7 or 8
decode rests on the spec's inference D14 (log entry 9). -/
def Obligations.ModeDigitsSelectModes : Prop :=
  ∀ w : Word, 0 ≤ w.toInt → w.toNat % 100 ∈ knownOpcodes →
    ∃ i, decode w = .ok i ∧
      ((modesOf i).1 = if w.toNat / 100 % 10 = 0 then .position else .immediate) ∧
      ((modesOf i).2.1 = if w.toNat / 1000 % 10 = 0 then .position else .immediate) ∧
      ((modesOf i).2.2 = if w.toNat / 10000 % 10 = 0 then .position else .immediate)

/-- R90: digits above digit 4 are not read (the spec's decision D5). -/
def Obligations.HigherDigitsAreIgnored : Prop :=
  ∀ w v : Word, 0 ≤ w.toInt → 0 ≤ v.toInt → w.toNat % 100000 = v.toNat % 100000 →
    (decode w).toOption = (decode v).toOption

/-- R97: the mode digit of a destination is not consulted, and the address is the operand word itself. -/
def Obligations.DestinationModeIsNotConsulted : Prop :=
  ∀ (m1 m2 m m' : Mode) (s : State),
    exec (.add m1 m2 m) s = exec (.add m1 m2 m') s ∧
      exec (.multiply m1 m2 m) s = exec (.multiply m1 m2 m') s ∧
      exec (.lessThan m1 m2 m) s = exec (.lessThan m1 m2 m') s ∧
      exec (.equals m1 m2 m) s = exec (.equals m1 m2 m') s ∧
      exec (.input m m1 m2) s = exec (.input m' m1 m2) s ∧
      ∀ k, addrOk s (s.ip + k) = true → 0 ≤ (operandAt s k).toInt → dst s k = .ok (operandAt s k).toNat

/-- R98: the mode digit of an operand the instruction does not have is not read, and changing it never changes behaviour. -/
def Obligations.AbsentModesAreNotRead : Prop :=
  ∀ (m1 m2 m3 n1 n2 n3 : Mode) (s : State),
    exec (.input m1 m2 m3) s = exec (.input m1 n2 n3) s ∧
      exec (.output m1 m2 m3) s = exec (.output m1 n2 n3) s ∧
      exec (.jumpIfTrue m1 m2 m3) s = exec (.jumpIfTrue m1 m2 n3) s ∧
      exec (.jumpIfFalse m1 m2 m3) s = exec (.jumpIfFalse m1 m2 n3) s ∧
      exec (.halt m1 m2 m3) s = exec (.halt n1 n2 n3) s

/-- R103 to R105 (the assembler is the spec's own, D15, D16; the opcode numbers 6, 7, 8 are D14, log entry 9; that the canonical
word keeps a destination's mode digit is log entry 10): each of the nine mnemonics is written and assembles as its row of
R104 says, `jmp` and `mov` as their expansions, `dat` as its literal words; `#v` is Immediate and `[a]` is Position; and a label
whose first definition stands at a line is the address of that line's first word. Two parts are the model's choice under log entry
16, of which R104 says nothing: that the first definition counts where a later line defines the label again (the label clause holds
for such programs too), and that a statement with an operand whose label has no definition does not assemble (the 'exactly where' of
AssemblesAs). -/
def Obligations.AssembledStatementsDecode : Prop :=
  (∀ a b d : AsmOperand,
    AssemblesAs (.add a b d) ("add " ++ textOfOperands [a, b, d]) (.add a.mode b.mode d.mode) [a.value, b.value, d.value] ∧
    AssemblesAs (.mul a b d) ("mul " ++ textOfOperands [a, b, d]) (.multiply a.mode b.mode d.mode)
      [a.value, b.value, d.value] ∧
    AssemblesAs (.inp d) ("in " ++ textOfOperands [d]) (.input d.mode .position .position) [d.value] ∧
    AssemblesAs (.out a) ("out " ++ textOfOperands [a]) (.output a.mode .position .position) [a.value] ∧
    AssemblesAs (.jt a b) ("jt " ++ textOfOperands [a, b]) (.jumpIfTrue a.mode b.mode .position) [a.value, b.value] ∧
    AssemblesAs (.jf a b) ("jf " ++ textOfOperands [a, b]) (.jumpIfFalse a.mode b.mode .position) [a.value, b.value] ∧
    AssemblesAs (.lt a b d) ("lt " ++ textOfOperands [a, b, d]) (.lessThan a.mode b.mode d.mode)
      [a.value, b.value, d.value] ∧
    AssemblesAs (.eq a b d) ("eq " ++ textOfOperands [a, b, d]) (.equals a.mode b.mode d.mode) [a.value, b.value, d.value] ∧
    AssemblesAs .hlt "hlt" (.halt .position .position .position) [] ∧
    AssemblesAs (.jmp b) ("jmp " ++ textOfOperands [b]) (.jumpIfTrue .immediate b.mode .position) [.num 1, b.value] ∧
    AssemblesAs (.mov a d) ("mov " ++ textOfOperands [a, d]) (.add a.mode .immediate d.mode) [a.value, .num 0, d.value]) ∧
  (∀ (table : List (String × Addr)) (vs : List Word),
    assembleStatement table (.dat vs) = some vs ∧ (∀ v, resolveValue table (.num v) = some v)) ∧
  (∀ v : AsmValue,
    textOfOperand { mode := .immediate, value := v } = "#" ++ textOfValue v ∧
      textOfOperand { mode := .position, value := v } = "[" ++ textOfValue v ++ "]") ∧
  ∀ (pre post : List AsmLine) (n : String) (st : AsmStatement) (ws : List Word),
    (∀ l ∈ pre, l.label ≠ some n) → assemble (pre ++ ⟨some n, st⟩ :: post) = some ws →
      ∃ before here after : List Word, ws = before ++ here ++ after ∧
        assembleLines (labelTable 0 (pre ++ ⟨some n, st⟩ :: post)) pre = some before ∧
        assembleStatement (labelTable 0 (pre ++ ⟨some n, st⟩ :: post)) st = some here ∧
        resolveValue (labelTable 0 (pre ++ ⟨some n, st⟩ :: post)) (.label n) = some (BitVec.ofNat 64 before.length)

/-! ### The step (40_engine.md) -/

/-- R120 (phase order D6) with the re-entry of R133 (D9): a step with no fault recorded runs the decoded instruction, after the
status of a waiting instance is set to Running. -/
def Obligations.StepRunsTheDecodedInstruction : Prop :=
  ∀ (s : State) (i : Instr), s.fault = none → addrOk s s.ip = true → decode (s.mem.read s.ip) = .ok i →
    (s.status = .running → step s = exec i s) ∧
      (s.status = .waitingForInput → step s = exec i { s with status := .running })

/-- R200, R201 and R208 items 1 and 2: a word that is no instruction raises UnknownOpcode with that word, and a fetch at or above
ADDR_LIMIT raises AddressLimit (D12); only the fault record (D23) changes. -/
def Obligations.FetchFaultsAreRecorded : Prop :=
  ∀ s : State, s.fault = none → s.status = .running →
    (addrOk s s.ip = false → step s = .next { s with fault := some (.addressLimit s.ip, s.ip) }) ∧
      (∀ e, addrOk s s.ip = true → decode (s.mem.read s.ip) = .error e →
        step s = .next { s with fault := some (.unknownOpcode (s.mem.read s.ip), s.ip) })

/-- R202 and R132: execution of a Halted instance raises ExecuteAfterHalt, and no step is executed (the record is D23; that the
model's step does so is log entry 1). -/
def Obligations.ExecutionAfterHaltRaises : Prop :=
  ∀ s : State, s.fault = none → s.status = .halted →
    step s = .next { s with fault := some (.executeAfterHalt, s.ip) } ∧
      ∀ fuel, runCommand fuel s = some (.next { s with fault := some (.executeAfterHalt, s.ip) })

/-- R206 and R120 (D10): while a fault is set every host command is refused and no step runs (the step's answer is log entry 2). -/
def Obligations.FaultedInstanceIsStopped : Prop :=
  ∀ (s : State) (k : FaultKind) (a : Addr), s.fault = some (k, a) →
    step s = .fault (.aborted k a) ∧ ∀ fuel c, hostCommand fuel c s = some (.refused .commandWhileFaulted)

/-- R121 (derived by the spec, record D23): a step that raises changes nothing but the fault record, which names the ip of the
step; the status is Running when the instance waited, since run had set it (R132). -/
def Obligations.FaultsArePrecise : Prop :=
  ∀ s t : State, step s = .next t → t.fault ≠ none →
    ∃ k, t = { s with
      fault := some (k, s.ip)
      status := if s.status = .waitingForInput then .running else s.status }

/-- Every instruction has an effect or a fault it takes: no meaning stops (60_exceptions.md R203, 40_engine.md R120). -/
def Obligations.EveryInstructionAnswersNext : Prop :=
  ∀ (i : Instr) (s : State), ∃ t, exec i s = .next t

/-- 10_state.md R35: the advance of the ip after each instruction that raises no fault is that of the source's table: the
instruction's length but for a taken jump, a blocked Input and Halt. -/
def Obligations.InstructionPointerAdvances : Prop :=
  ∀ (m1 m2 m3 : Mode) (s t : State), s.fault = none → t.fault = none →
    (∀ i ∈ threeOperandInstrs m1 m2 m3, exec i s = .next t → t.ip = s.ip + 4 ∧ 4 = 1 + operandCount i) ∧
      (exec (.input m1 m2 m3) s = .next t →
        (s.inRd < s.inQ.length → t.inRd = s.inRd + 1 ∧ t.ip = s.ip + 2 ∧ 2 = 1 + operandCount (.input m1 m2 m3)) ∧
          (s.inRd = s.inQ.length → t.inRd = s.inRd ∧ t.ip = s.ip)) ∧
      (exec (.output m1 m2 m3) s = .next t → t.ip = s.ip + 2 ∧ 2 = 1 + operandCount (.output m1 m2 m3)) ∧
      (∀ c g : Word, SourceReads s m1 1 c → SourceReads s m2 2 g →
        (exec (.jumpIfTrue m1 m2 m3) s = .next t →
          (c.toInt ≠ 0 → (t.ip : Int) = g.toInt) ∧
            (c.toInt = 0 → t.ip = s.ip + 3 ∧ 3 = 1 + operandCount (.jumpIfTrue m1 m2 m3))) ∧
          (exec (.jumpIfFalse m1 m2 m3) s = .next t →
            (c.toInt = 0 → (t.ip : Int) = g.toInt) ∧
              (c.toInt ≠ 0 → t.ip = s.ip + 3 ∧ 3 = 1 + operandCount (.jumpIfFalse m1 m2 m3)))) ∧
      (exec (.halt m1 m2 m3) s = .next t → t.ip = s.ip)

/-! ### Arithmetic and comparison (41_arithmetic.md) -/

/-- R150, R154: Add with operands that read and a sum in range writes exactly the sum at the destination and advances by 4. -/
def Obligations.AddWritesTheSum : Prop :=
  ∀ (m1 m2 m3 : Mode) (s : State) (a b : Word) (d : Addr),
    SourceReads s m1 1 a → SourceReads s m2 2 b → DestReads s 3 d → addrOk s d = true →
    -2 ^ 63 ≤ a.toInt + b.toInt → a.toInt + b.toInt ≤ 2 ^ 63 - 1 →
      ∃ r : Word, r.toInt = a.toInt + b.toInt ∧
        exec (.add m1 m2 m3) s = .next { s with mem := s.mem.write d r, ip := s.ip + 4 }

/-- R151, R154: Multiply with operands that read and a product in range writes exactly the product and advances by 4. -/
def Obligations.MultiplyWritesTheProduct : Prop :=
  ∀ (m1 m2 m3 : Mode) (s : State) (a b : Word) (d : Addr),
    SourceReads s m1 1 a → SourceReads s m2 2 b → DestReads s 3 d → addrOk s d = true →
    -2 ^ 63 ≤ a.toInt * b.toInt → a.toInt * b.toInt ≤ 2 ^ 63 - 1 →
      ∃ r : Word, r.toInt = a.toInt * b.toInt ∧
        exec (.multiply m1 m2 m3) s = .next { s with mem := s.mem.write d r, ip := s.ip + 4 }

/-- R154, R205 (decision D2; Wrap rests on two's complement, log entry 8): a result out of range raises ArithmeticOverflow under
Fault, before any check of the write, and is wrapped to 64 bits under Wrap. -/
def Obligations.OverflowFollowsThePolicy : Prop :=
  ∀ (m1 m2 m3 : Mode) (s : State) (a b : Word) (d : Addr) (i : Instr) (r : Int),
    SourceReads s m1 1 a → SourceReads s m2 2 b → DestReads s 3 d →
    (i = .add m1 m2 m3 ∧ r = a.toInt + b.toInt) ∨ (i = .multiply m1 m2 m3 ∧ r = a.toInt * b.toInt) →
    r < -2 ^ 63 ∨ 2 ^ 63 - 1 < r →
      (s.cfg.overflowPolicy = .fault →
        exec i s = .next { s with fault := some (.arithmeticOverflow a b, s.ip) }) ∧
      (s.cfg.overflowPolicy = .wrap → addrOk s d = true →
        ∃ v : Word, v.toInt = (r + 2 ^ 63) % 2 ^ 64 - 2 ^ 63 ∧
          exec i s = .next { s with mem := s.mem.write d v, ip := s.ip + 4 })

/-- R155: LessThan and Equals compare as signed integers, write exactly 1 or exactly 0, and never overflow. -/
def Obligations.ComparisonsWriteOneOrZero : Prop :=
  ∀ (m1 m2 m3 : Mode) (s : State) (a b : Word) (d : Addr),
    SourceReads s m1 1 a → SourceReads s m2 2 b → DestReads s 3 d → addrOk s d = true →
      exec (.lessThan m1 m2 m3) s =
        .next { s with mem := s.mem.write d (if a.toInt < b.toInt then 1 else 0), ip := s.ip + 4 } ∧
      exec (.equals m1 m2 m3) s =
        .next { s with mem := s.mem.write d (if a.toInt = b.toInt then 1 else 0), ip := s.ip + 4 } ∧
      (a = b → exec (.lessThan m1 m2 m3) s = .next { s with mem := s.mem.write d 0, ip := s.ip + 4 } ∧
        exec (.equals m1 m2 m3) s = .next { s with mem := s.mem.write d 1, ip := s.ip + 4 })

/-- R150 to R153 and 60_exceptions.md R208 items 3 and 4 (order D6, negative addresses D3, limits D12): operand 1 faults before
operand 2, and operand 2 before the destination, in each of the four instructions. -/
def Obligations.ThreeOperandFaultsComeInOrder : Prop :=
  ∀ (m1 m2 m3 : Mode) (s : State), ∀ i ∈ threeOperandInstrs m1 m2 m3,
    (∀ f, SourceFaults s m1 1 f → exec i s = .next { s with fault := some (f, s.ip) }) ∧
      (∀ a f, SourceReads s m1 1 a → SourceFaults s m2 2 f → exec i s = .next { s with fault := some (f, s.ip) }) ∧
      (∀ a b f, SourceReads s m1 1 a → SourceReads s m2 2 b → DestFaults s 3 f →
        exec i s = .next { s with fault := some (f, s.ip) })

/-- R150 to R153 and R208 item 6 (D12): a write at or above ADDR_LIMIT raises AddressLimit with the destination, after the
computation. -/
def Obligations.WritesAtTheLimitFault : Prop :=
  ∀ (m1 m2 m3 : Mode) (s : State) (a b : Word) (d : Addr),
    SourceReads s m1 1 a → SourceReads s m2 2 b → DestReads s 3 d → addrOk s d = false →
      (∀ i ∈ [Instr.lessThan m1 m2 m3, Instr.equals m1 m2 m3],
        exec i s = .next { s with fault := some (.addressLimit d, s.ip) }) ∧
      (s.cfg.overflowPolicy = .wrap ∨ (-2 ^ 63 ≤ a.toInt + b.toInt ∧ a.toInt + b.toInt ≤ 2 ^ 63 - 1) →
        exec (.add m1 m2 m3) s = .next { s with fault := some (.addressLimit d, s.ip) }) ∧
      (s.cfg.overflowPolicy = .wrap ∨ (-2 ^ 63 ≤ a.toInt * b.toInt ∧ a.toInt * b.toInt ≤ 2 ^ 63 - 1) →
        exec (.multiply m1 m2 m3) s = .next { s with fault := some (.addressLimit d, s.ip) })

/-- The frame of Add, Multiply, LessThan and Equals (R150 to R153, R156): only memory at the destination, the ip and the fault
record may change. -/
def Obligations.ThreeOperandFrame : Prop :=
  ∀ (m1 m2 m3 : Mode) (s t : State), ∀ i ∈ threeOperandInstrs m1 m2 m3, exec i s = .next t →
    t.cfg = s.cfg ∧ t.imageLen = s.imageLen ∧ t.status = s.status ∧ t.inQ = s.inQ ∧ t.inRd = s.inRd ∧
      t.outQ = s.outQ ∧ t.outRd = s.outRd ∧
      (∀ d, dst s 3 = .ok d → ∀ b, b ≠ d → t.mem.read b = s.mem.read b) ∧
      (∀ f, dst s 3 = .error f → ∀ b, t.mem.read b = s.mem.read b)

/-! ### Input and Output (42_io.md) -/

/-- R170: with an unread entry, Input writes the oldest one at the destination, consumes it, and advances by 2. -/
def Obligations.InputWritesTheOldestEntry : Prop :=
  ∀ (m1 m2 m3 : Mode) (s : State) (d : Addr) (v : Word),
    DestReads s 1 d → addrOk s d = true → s.inQ[s.inRd]? = some v →
      exec (.input m1 m2 m3) s =
        .next { s with mem := s.mem.write d v, inRd := s.inRd + 1, ip := s.ip + 2 }

/-- R170: with no unread entry, Input sets the status to WaitingForInput and changes nothing else. -/
def Obligations.InputBlocksOnAnEmptyQueue : Prop :=
  ∀ (m1 m2 m3 : Mode) (s : State) (d : Addr), DestReads s 1 d → s.inRd = s.inQ.length →
    exec (.input m1 m2 m3) s = .next { s with status := .waitingForInput }

/-- R170, R208 (D7, D3, D12): a destination that faults does so whether or not an entry is unread; the write's limit is checked
only when a value is written. -/
def Obligations.InputFaultsBeforeItBlocks : Prop :=
  ∀ (m1 m2 m3 : Mode) (s : State),
    (∀ f, DestFaults s 1 f → exec (.input m1 m2 m3) s = .next { s with fault := some (f, s.ip) }) ∧
      (∀ d v, DestReads s 1 d → s.inQ[s.inRd]? = some v → addrOk s d = false →
        exec (.input m1 m2 m3) s = .next { s with fault := some (.addressLimit d, s.ip) })

/-- The frame of Input (R170): only memory at the destination, the input cursor, the ip, the status and the fault record may
change; a blocked Input writes no memory. -/
def Obligations.InputFrame : Prop :=
  ∀ (m1 m2 m3 : Mode) (s t : State), exec (.input m1 m2 m3) s = .next t →
    t.cfg = s.cfg ∧ t.imageLen = s.imageLen ∧ t.inQ = s.inQ ∧ t.outQ = s.outQ ∧ t.outRd = s.outRd ∧
      (t.inRd = s.inRd ∨ t.inRd = s.inRd + 1) ∧ (t.status = s.status ∨ t.status = .waitingForInput) ∧
      (∀ d, dst s 1 = .ok d → ∀ b, b ≠ d → t.mem.read b = s.mem.read b) ∧
      (∀ f, dst s 1 = .error f → ∀ b, t.mem.read b = s.mem.read b) ∧
      (s.inQ[s.inRd]? = none → ∀ b, t.mem.read b = s.mem.read b)

/-- R171: Output with a source that reads and room in the queue appends the value and advances by 2. With QUEUE_LIMIT unset
(R8) there is always room. -/
def Obligations.OutputAppendsTheValue : Prop :=
  ∀ (m1 m2 m3 : Mode) (s : State) (a : Word), SourceReads s m1 1 a →
    (∀ n, s.cfg.queueLimit = some n → s.outQ.length - s.outRd < n) →
      exec (.output m1 m2 m3) s = .next { s with outQ := s.outQ ++ [a], ip := s.ip + 2 }

/-- R171, R208 (D3, D12, D13): a source that faults does so before QUEUE_LIMIT is looked at; a full queue raises QueueLimit. -/
def Obligations.OutputFaultsComeInOrder : Prop :=
  ∀ (m1 m2 m3 : Mode) (s : State),
    (∀ f, SourceFaults s m1 1 f → exec (.output m1 m2 m3) s = .next { s with fault := some (f, s.ip) }) ∧
      (∀ a n, SourceReads s m1 1 a → s.cfg.queueLimit = some n → n ≤ s.outQ.length - s.outRd →
        exec (.output m1 m2 m3) s = .next { s with fault := some (.queueLimit, s.ip) })

/-! ### Control transfer and Halt (43_control.md) -/

/-- R185: JumpIfTrue goes to the target when the condition word is not 0, and to ip + 3 otherwise. -/
def Obligations.JumpIfTrueCompletes : Prop :=
  ∀ (m1 m2 m3 : Mode) (s : State) (c g : Word), SourceReads s m1 1 c → SourceReads s m2 2 g →
    (c.toInt ≠ 0 → 0 ≤ g.toInt → exec (.jumpIfTrue m1 m2 m3) s = .next { s with ip := g.toNat }) ∧
      (c.toInt = 0 → exec (.jumpIfTrue m1 m2 m3) s = .next { s with ip := s.ip + 3 })

/-- R186: JumpIfFalse goes to the target when the condition word is 0, and to ip + 3 otherwise. -/
def Obligations.JumpIfFalseCompletes : Prop :=
  ∀ (m1 m2 m3 : Mode) (s : State) (c g : Word), SourceReads s m1 1 c → SourceReads s m2 2 g →
    (c.toInt = 0 → 0 ≤ g.toInt → exec (.jumpIfFalse m1 m2 m3) s = .next { s with ip := g.toNat }) ∧
      (c.toInt ≠ 0 → exec (.jumpIfFalse m1 m2 m3) s = .next { s with ip := s.ip + 3 })

/-- R185, R186, R188, R208 (D3, D8, D12): both operands of a jump are resolved, in order, whether or not it is taken; a negative
target faults only when the jump is taken. -/
def Obligations.JumpFaultsComeInOrder : Prop :=
  ∀ (m1 m2 m3 : Mode) (s : State),
    (∀ i ∈ [Instr.jumpIfTrue m1 m2 m3, Instr.jumpIfFalse m1 m2 m3],
      (∀ f, SourceFaults s m1 1 f → exec i s = .next { s with fault := some (f, s.ip) }) ∧
        (∀ c f, SourceReads s m1 1 c → SourceFaults s m2 2 f → exec i s = .next { s with fault := some (f, s.ip) })) ∧
      (∀ c g, SourceReads s m1 1 c → SourceReads s m2 2 g → g.toInt < 0 →
        (c.toInt ≠ 0 → exec (.jumpIfTrue m1 m2 m3) s = .next { s with fault := some (.negativeAddress g, s.ip) }) ∧
          (c.toInt = 0 → exec (.jumpIfFalse m1 m2 m3) s = .next { s with fault := some (.negativeAddress g, s.ip) }))

/-- R190: every word whose opcode is 99 is Halt, Halt sets the status to Halted and changes nothing else, and a later run raises
ExecuteAfterHalt (its record is D23). -/
def Obligations.HaltCompletes : Prop :=
  (∀ w : Word, 0 ≤ w.toInt → w.toNat % 100 = 99 → ∃ m1 m2 m3, decode w = .ok (.halt m1 m2 m3)) ∧
    ∀ (m1 m2 m3 : Mode) (s : State),
      exec (.halt m1 m2 m3) s = .next { s with status := .halted } ∧
        (s.fault = none → ∀ fuel, runCommand fuel { s with status := .halted } =
          some (.next { s with status := .halted, fault := some (.executeAfterHalt, s.ip) }))

/-- The frames of Output, the jumps and Halt (R171, R185, R186, R190): none writes memory; Output changes only the output queue,
the ip and the fault record; a jump only the ip and the fault record; Halt only the status. -/
def Obligations.NonStoringFrame : Prop :=
  ∀ (m1 m2 m3 : Mode) (s t : State),
    (exec (.output m1 m2 m3) s = .next t →
      t = { s with outQ := t.outQ, ip := t.ip, fault := t.fault } ∧
        (t.outQ = s.outQ ∨ ∃ a, src s m1 1 = .ok a ∧ t.outQ = s.outQ ++ [a])) ∧
      (exec (.jumpIfTrue m1 m2 m3) s = .next t → t = { s with ip := t.ip, fault := t.fault }) ∧
      (exec (.jumpIfFalse m1 m2 m3) s = .next t → t = { s with ip := t.ip, fault := t.fault }) ∧
      (exec (.halt m1 m2 m3) s = .next t → t = { s with status := t.status })

/-! ### Memory (20_memory.md) -/

/-- R60, R61 (the limit is D12): MemWrite makes the address read as the value, leaves every other address and everything else as
it was, and at or above ADDR_LIMIT raises AddressLimit, as MemRead does. -/
def Obligations.WriteThenRead : Prop :=
  ∀ (s : State) (a : Addr) (v : Word),
    (addrOk s a = true → ∃ t, memWrite s a v = .ok t ∧ memRead t a = .ok v ∧
      (∀ b, b ≠ a → memRead t b = memRead s b) ∧ t = { s with mem := t.mem }) ∧
    (addrOk s a = false → memWrite s a v = .error (.addressLimit a) ∧ memRead s a = .error (.addressLimit a))

/-- R33: no two memories in canonical form read alike at every address, so what is stored beyond the memory function is nothing
(the canonical form is the model's own, log entry 4). -/
def Obligations.EqualReadsAreEqualMemories : Prop :=
  ∀ m n : Memory, m.wf = true → n.wf = true → (∀ a, m.read a = n.read a) → m = n

/-! ### Status, queues and configuration (10_state.md) -/

/-- R123: a step of an instance that is not waiting suspends at an Input with no unread entry and nowhere else; that Input leaves
everything but the status; and after a submit_input the next step fetches and runs the same Input again. -/
def Obligations.SuspensionOnlyAtInput : Prop :=
  (∀ (s : State) (m1 m2 m3 : Mode) (d : Addr), s.fault = none → s.status = .running → addrOk s s.ip = true →
    decode (s.mem.read s.ip) = .ok (.input m1 m2 m3) → DestReads s 1 d → s.inRd = s.inQ.length →
      step s = .next { s with status := .waitingForInput }) ∧
    ∀ s t : State, step s = .next t → s.status ≠ .waitingForInput → t.status = .waitingForInput →
      ∃ m1 m2 m3, decode (s.mem.read s.ip) = .ok (.input m1 m2 m3) ∧ s.inQ[s.inRd]? = none ∧
        t = { s with status := .waitingForInput } ∧
        ∀ v u, submitInput v t = .next u → step u = exec (.input m1 m2 m3) u

/-- R38: no step and no host command leaves Halted, and a run of a Halted instance is a fatal error. -/
def Obligations.HaltedIsTerminal : Prop :=
  ∀ s : State, s.status = .halted →
    (∀ t, step s = .next t → t.status = .halted ∧ t.fault ≠ none) ∧
      (∀ fuel c t r, hostCommand fuel c s = some (.next (t, r)) →
        t.status = .halted ∧ (c = .run → t.fault ≠ none))

/-- R40 (Running to Halted): a step makes an instance Halted only by executing Halt, and changes nothing else (10_state.md's
table holds decisions D9 and D19 in other rows). -/
def Obligations.HaltedOnlyByHalt : Prop :=
  ∀ s t : State, step s = .next t → s.status ≠ .halted → t.status = .halted →
    isHaltWord (s.mem.read s.ip) = true ∧ t = { s with status := .halted }

/-- R43: the unread-output count decreases only when take_output consumes an entry and increases only when an Output instruction
emits one; no step and no command resets it. -/
def Obligations.UnreadOutputCount : Prop :=
  (∀ s t : State, step s = .next t →
    unreadOutput s ≤ unreadOutput t ∧ t.outRd = s.outRd ∧
      (unreadOutput s < unreadOutput t → isOutputWord (s.mem.read s.ip) = true)) ∧
    (∀ (s t : State) (fuel : Nat) (c : HostCommand) (r : Reply), hostCommand fuel c s = some (.next (t, r)) →
      (unreadOutput t < unreadOutput s → c = .takeOutput ∧ ∃ v, r = .optWord (some v)) ∧
        (unreadOutput s < unreadOutput t → c = .run))

/-- 10_state.md R41 and 42_io.md R172 (derived by the spec): submit_input appends at the end; a step never changes the input
queue; it consumes at most one entry, the oldest unread one, and that is the word its Input writes. -/
def Obligations.InputIsConsumedInOrder : Prop :=
  (∀ s t : State, step s = .next t →
    t.inQ = s.inQ ∧
      (t.inRd = s.inRd ∨
        (t.inRd = s.inRd + 1 ∧ isInputWord (s.mem.read s.ip) = true ∧
          ∃ v d, s.inQ[s.inRd]? = some v ∧ DestReads s 1 d ∧ t.mem.read d = v))) ∧
    (∀ (s t : State) (v : Word), submitInput v s = .next t → t.inQ = s.inQ ++ [v] ∧ t.inRd = s.inRd)

/-- 42_io.md R172 (derived by the spec): taking all unread output delivers exactly the unread entries, in emission order, each
once, and moves the cursor to the end. -/
def Obligations.OutputIsDeliveredInOrder : Prop :=
  ∀ s : State, s.outRd ≤ s.outQ.length →
    (takeAll (unreadOutput s) s).2 = s.outQ.drop s.outRd ∧
      (takeAll (unreadOutput s) s).1 = { s with outRd := s.outQ.length }

/-- R47 for the instructions: no step reads the consumed input entries: a step of an instance with any other consumed entries gives
the same next state but for those entries. -/
def Obligations.ConsumedInputIsHidden : Prop :=
  ∀ (s t : State) (p : List Word), s.inRd ≤ s.inQ.length → p.length = s.inRd → step s = .next t →
    step { s with inQ := p ++ s.inQ.drop s.inRd } = .next { t with inQ := p ++ s.inQ.drop s.inRd }

/-- R47 for the host commands: no command reads the consumed input entries: on an instance with any other consumed entries it
returns the same and leaves the same state but for those entries, and is refused or runs out of fuel (R124) on both alike. -/
def Obligations.ConsumedInputIsHiddenFromCommands : Prop :=
  ∀ (s : State) (p : List Word) (fuel : Nat) (c : HostCommand), s.inRd ≤ s.inQ.length → p.length = s.inRd →
    (∀ t r, hostCommand fuel c s = some (.next (t, r)) →
      hostCommand fuel c (withConsumedInput s p s.inRd) = some (.next (withConsumedInput t p s.inRd, r))) ∧
    (∀ e, hostCommand fuel c s = some (.refused e) →
      hostCommand fuel c (withConsumedInput s p s.inRd) = some (.refused e)) ∧
    (hostCommand fuel c s = none → hostCommand fuel c (withConsumedInput s p s.inRd) = none)

/-- R47 for the consumed output entries: no step reads them, and of the host commands only peek_last_output does, and only the last
entry: with any other consumed entries every command but peek_last_output, and peek_last_output too where an entry is unread or
the last consumed entry is the same, returns the same and leaves the same state but for those entries. -/
def Obligations.ConsumedOutputIsHidden : Prop :=
  ∀ (s : State) (p : List Word), s.outRd ≤ s.outQ.length → p.length = s.outRd →
    (∀ t, step s = .next t →
      step (withConsumedOutput s p s.outRd) = .next (withConsumedOutput t p s.outRd)) ∧
    ∀ (fuel : Nat) (c : HostCommand) (t : State) (r : Reply),
      (c = .peekLastOutput → s.outRd < s.outQ.length ∨ p.getLast? = (s.outQ.take s.outRd).getLast?) →
        hostCommand fuel c s = some (.next (t, r)) →
          hostCommand fuel c (withConsumedOutput s p s.outRd) = some (.next (withConsumedOutput t p s.outRd, r))

/-- 00_scope.md R7 to R9 and 10_state.md R32: no step and no host command changes the parameters (a field of the model's own, log
entry 5) or the image's length. -/
def Obligations.ParametersNeverChange : Prop :=
  (∀ s t : State, step s = .next t → t.cfg = s.cfg ∧ t.imageLen = s.imageLen) ∧
    (∀ (s t : State) (fuel : Nat) (c : HostCommand) (r : Reply), hostCommand fuel c s = some (.next (t, r)) →
      t.cfg = s.cfg ∧ t.imageLen = s.imageLen)

/-! ### Host commands (40_engine.md) -/

/-- R130 and 10_state.md R49 (the fault field is the spec's own, D23): construct leaves every piece of state at its reset value,
and memory reads as the image with 0 above it. -/
def Obligations.ConstructLoadsTheImage : Prop :=
  ∀ (c : Config) (image : List Word),
    (construct c image).cfg = c ∧ (construct c image).imageLen = image.length ∧ (construct c image).ip = 0 ∧
      (construct c image).status = .running ∧ (construct c image).inQ = [] ∧ (construct c image).inRd = 0 ∧
      (construct c image).outQ = [] ∧ (construct c image).outRd = 0 ∧ (construct c image).fault = none ∧
      (∀ a, (construct c image).mem.read a = image.getD a 0) ∧ (construct c image).image = image ∧
      ∀ a, (construct c image).ext a = none

/-- 10_state.md R49 and 00_scope.md R7 to R9: the reset state is construct of the empty image with the default parameters (the
empty image is the model's choice, log entry 6). -/
def Obligations.ResetIsConstructOfNothing : Prop :=
  State.reset = construct { overflowPolicy := .fault, addrLimit := none, queueLimit := none } [] ∧
    ∀ a, State.reset.mem.read a = 0

/-- R131 (D13, D19): submit_input appends, makes a waiting instance Running, leaves every other status, and is refused only under
a reached QUEUE_LIMIT. -/
def Obligations.SubmitInputAppends : Prop :=
  ∀ (fuel : Nat) (v : Word) (s : State), s.fault = none →
    ((∀ n, s.cfg.queueLimit = some n → s.inQ.length - s.inRd < n) →
      hostCommand fuel (.submitInput v) s =
        some (.next ({ s with
          inQ := s.inQ ++ [v]
          status := if s.status = .waitingForInput then .running else s.status }, .nothing))) ∧
    (∀ n, s.cfg.queueLimit = some n → n ≤ s.inQ.length - s.inRd →
      hostCommand fuel (.submitInput v) s = some (.refused .inputQueueFull))

/-- R134, R136, R137, R138: has_unread_output, peek_last_output, is_halted and is_halted_or_blocked answer what the rules give and
change no state; the last is false right after construct and after a submit_input that unblocked the instance. -/
def Obligations.ObserversAnswer : Prop :=
  ∀ (fuel : Nat) (s : State), s.fault = none →
    hostCommand fuel .hasUnreadOutput s = some (.next (s, .bool (decide (s.outRd < s.outQ.length)))) ∧
      (s.outQ = [] → hostCommand fuel .peekLastOutput s = some (.next (s, .optWord none))) ∧
      (∀ xs x, s.outQ = xs ++ [x] → hostCommand fuel .peekLastOutput s = some (.next (s, .optWord (some x)))) ∧
      hostCommand fuel .isHalted s = some (.next (s, .bool (decide (s.status = .halted)))) ∧
      hostCommand fuel .isHaltedOrBlocked s =
        some (.next (s, .bool (decide (s.status = .halted ∨ s.status = .waitingForInput)))) ∧
      (∀ c image, hostCommand fuel .isHaltedOrBlocked (construct c image) =
        some (.next (construct c image, .bool false))) ∧
      (∀ v t, s.status = .waitingForInput → submitInput v s = .next t →
        hostCommand fuel .isHaltedOrBlocked t = some (.next (t, .bool false)))

/-- R135: take_output consumes the oldest unread entry and returns it, and returns none when every entry was taken. -/
def Obligations.TakeOutputTakesTheOldest : Prop :=
  ∀ (fuel : Nat) (s : State), s.fault = none →
    (∀ h : s.outRd < s.outQ.length,
      hostCommand fuel .takeOutput s = some (.next ({ s with outRd := s.outRd + 1 }, .optWord (some s.outQ[s.outRd])))) ∧
      (s.outQ.length ≤ s.outRd → hostCommand fuel .takeOutput s = some (.next (s, .optWord none)))

/-- R139 (D22): mem_peek answers the memory function, 0 at or above ADDR_LIMIT, never raises and changes no state. -/
def Obligations.MemPeekReadsMemory : Prop :=
  ∀ (fuel : Nat) (s : State) (a : Addr), s.fault = none →
    (addrOk s a = true → hostCommand fuel (.memPeek a) s = some (.next (s, .word (s.mem.read a)))) ∧
      (addrOk s a = false → hostCommand fuel (.memPeek a) s = some (.next (s, .word 0)))

/-! ### Runs (40_engine.md) -/

/-- R124, R132: the executor's loop under fuel and the relation over finite step sequences are one thing. -/
def Obligations.LoopIsAFiniteStepSequence : Prop :=
  ∀ s t : State, (∃ n, runLoop n s = some (.next t)) ↔ LoopEnds s t

/-- R122: what a run that returns returns is determined by the state: the amount of fuel does not matter. -/
def Obligations.RunIsDeterministic : Prop :=
  ∀ s t u : State, RunReturns s t → RunReturns s u → t = u

/-- R142 (derived by the spec): when a run returns, the program finished, or it waits for input, or a fault is set at the ip. -/
def Obligations.RunEndsInOneOfThreeWays : Prop :=
  ∀ s t : State, RunReturns s t →
    (t.status = .halted ∧ Safe t) ∨ (t.status = .waitingForInput ∧ Safe t) ∨
      (∃ k, t.fault = some (k, t.ip) ∧ t.status ≠ .waitingForInput)

/-- R133 (D9): a run of a waiting instance with no input submitted ends in exactly the state it started from. -/
def Obligations.RunOfWaitingChangesNothing : Prop :=
  ∀ s : State, Coherent s → s.fault = none → s.status = .waitingForInput →
    step s = .next s ∧ ∀ fuel, runCommand (fuel + 1) s = some (.next s)

/-! ### Invariants

Coherent holds the four clauses of 10_state.md R48, which the spec marks as derived, and two of the model's own: the canonical form
of memory (log entry 4) and waiting_below_limit (log entry 18). -/

/-- The invariant (R48 and the model's two clauses, log entries 4 and 18) holds at reset. -/
def Obligations.CoherentAtReset : Prop := Coherent State.reset

/-- Every step from every state that meets the invariant (R48 and the model's two clauses, log entries 4 and 18) keeps it. -/
def Obligations.StepKeepsCoherent : Prop :=
  ∀ s t : State, Coherent s → step s = .next t → Coherent t

/-- Every host command from every state that meets the invariant (R48 and the model's two clauses, log entries 4 and 18) keeps
it. -/
def Obligations.CommandsKeepCoherent : Prop :=
  ∀ (s t : State) (fuel : Nat) (c : HostCommand) (r : Reply), Coherent s →
    hostCommand fuel c s = some (.next (t, r)) → Coherent t

/-- R48's clauses, and the model's own two (log entries 4 and 18), hold of every reachable state: after any construct, any steps and
any host commands. That Reachable mixes steps and commands is the model's (log entry 11). -/
def Obligations.ReachableStatesAreCoherent : Prop :=
  ∀ s : State, Reachable s → Coherent s

/-! ### Several instances (60_exceptions.md) -/

/-- R225, R226: a command to one instance changes no other instance and constructs or removes none. -/
def Obligations.InstancesShareNoState : Prop :=
  ∀ (net net' : Network) (fuel i : Nat) (c : HostCommand) (r : Reply),
    networkCommand fuel i c net = some (.next (net', r)) →
      net'.length = net.length ∧ (∀ j, j ≠ i → net'[j]? = net[j]?) ∧
        ∃ s t, net[i]? = some s ∧ net'[i]? = some t ∧ hostCommand fuel c s = some (.next (t, r))
end

