-- ==== Sys2Proof/Laws/Memory.lean ====
section
/-! SUPPORT. What the memory operations do: reads after writes, and that every operation keeps the canonical form. -/

namespace Sys2Proof.Machine

@[simp] theorem Memory.read_nil (a : Addr) : Memory.read [] a = 0 := rfl

theorem Memory.read_cons (c : Cell) (m : Memory) (a : Addr) :
    Memory.read (c :: m) a = if c.1 = a then c.2 else Memory.read m a := rfl

/-- An address no cell carries reads as 0. -/
theorem Memory.read_of_absent (m : Memory) (a : Addr) (h : ∀ c ∈ m, c.1 ≠ a) : Memory.read m a = 0 := by
  induction m with
  | nil => rfl
  | cons c m ih =>
    rw [Memory.read_cons, if_neg (h c (by simp)), ih fun d hd => h d (by simp [hd])]

theorem Memory.absent_erase (m : Memory) (a : Addr) : ∀ c ∈ m.erase a, c.1 ≠ a := by
  intro c hc
  simpa using (List.mem_filter.mp hc).2

theorem Memory.read_erase_other (m : Memory) (a b : Addr) (h : b ≠ a) : (m.erase a).read b = m.read b := by
  induction m with
  | nil => rfl
  | cons c m ih =>
    by_cases hc : c.1 = a
    · have : Memory.erase (c :: m) a = Memory.erase m a := by simp [Memory.erase, hc]
      rw [this, ih, Memory.read_cons, if_neg fun e => h (e.symm.trans hc)]
    · have : Memory.erase (c :: m) a = c :: Memory.erase m a := by simp [Memory.erase, hc]
      rw [this, Memory.read_cons, Memory.read_cons, ih]

theorem Memory.read_place_self (m : Memory) (c : Cell) (h : ∀ d ∈ m, d.1 ≠ c.1) : (m.place c).read c.1 = c.2 := by
  induction m with
  | nil => simp [Memory.place, Memory.read_cons]
  | cons b m ih =>
    have hb : b.1 ≠ c.1 := h b (by simp)
    unfold Memory.place
    split
    · simp [Memory.read_cons]
    · rw [Memory.read_cons, if_neg hb, ih fun d hd => h d (by simp [hd])]

theorem Memory.read_place_other (m : Memory) (c : Cell) (a : Addr) (h : a ≠ c.1) : (m.place c).read a = m.read a := by
  induction m with
  | nil => simp [Memory.place, Memory.read_cons, Ne.symm h]
  | cons b m ih =>
    unfold Memory.place
    split
    · rw [Memory.read_cons, if_neg (Ne.symm h)]
    · rw [Memory.read_cons, Memory.read_cons, ih]

/-- What every read gives after a write (20_memory.md R61). -/
theorem Memory.read_write (m : Memory) (a : Addr) (v : Word) (b : Addr) :
    (m.write a v).read b = if b = a then v else m.read b := by
  unfold Memory.write
  by_cases hb : b = a
  · subst hb
    split
    · next hv => rw [if_pos rfl, hv, Memory.read_of_absent _ _ (m.absent_erase b)]
    · rw [if_pos rfl]; exact Memory.read_place_self _ (b, v) (m.absent_erase b)
  · rw [if_neg hb]
    split
    · exact m.read_erase_other a b hb
    · rw [Memory.read_place_other _ (a, v) b hb, m.read_erase_other a b hb]

@[simp] theorem Memory.read_write_self (m : Memory) (a : Addr) (v : Word) : (m.write a v).read a = v := by
  simp [Memory.read_write]

theorem Memory.read_write_other (m : Memory) (a b : Addr) (v : Word) (h : b ≠ a) :
    (m.write a v).read b = m.read b := by
  simp [Memory.read_write, h]

/-! ### The canonical form -/

theorem Memory.wf_cons (c : Cell) (m : Memory) :
    Memory.wf (c :: m) = true ↔ c.2 ≠ 0 ∧ (∀ d ∈ m, c.1 < d.1) ∧ Memory.wf m = true := by
  simp [Memory.wf, and_assoc]

theorem Memory.wf_erase (m : Memory) (a : Addr) (h : m.wf = true) : (m.erase a).wf = true := by
  induction m with
  | nil => rfl
  | cons c m ih =>
    obtain ⟨h0, hlt, hm⟩ := (Memory.wf_cons c m).mp h
    by_cases hc : c.1 = a
    · simpa [Memory.erase, hc] using ih hm
    · have : Memory.erase (c :: m) a = c :: Memory.erase m a := by simp [Memory.erase, hc]
      rw [this, Memory.wf_cons]
      exact ⟨h0, fun d hd => hlt d (List.mem_filter.mp hd).1, ih hm⟩

theorem Memory.mem_place (m : Memory) (c d : Cell) (h : d ∈ m.place c) : d = c ∨ d ∈ m := by
  induction m with
  | nil => simpa [Memory.place] using h
  | cons b m ih =>
    unfold Memory.place at h
    split at h
    · simpa using h
    · rcases List.mem_cons.mp h with rfl | h
      · simp
      · rcases ih h with rfl | h
        · simp
        · simp [h]

theorem Memory.wf_place (m : Memory) (c : Cell) (h : m.wf = true) (hc : c.2 ≠ 0) (ha : ∀ d ∈ m, d.1 ≠ c.1) :
    (m.place c).wf = true := by
  induction m with
  | nil => simpa [Memory.place, Memory.wf] using hc
  | cons b m ih =>
    obtain ⟨h0, hlt, hm⟩ := (Memory.wf_cons b m).mp h
    unfold Memory.place
    split
    · next hcb =>
      rw [Memory.wf_cons]
      refine ⟨hc, ?_, h⟩
      intro d hd
      rcases List.mem_cons.mp hd with rfl | hd
      · exact hcb
      · exact lt_trans hcb (hlt d hd)
    · next hcb =>
      have hb : b.1 ≠ c.1 := ha b (by simp)
      rw [Memory.wf_cons]
      refine ⟨h0, ?_, ih hm fun d hd => ha d (by simp [hd])⟩
      intro d hd
      rcases Memory.mem_place _ _ _ hd with rfl | hd
      · omega
      · exact hlt d hd

/-- A write keeps the canonical form. -/
theorem Memory.wf_write (m : Memory) (a : Addr) (v : Word) (h : m.wf = true) : (m.write a v).wf = true := by
  unfold Memory.write
  split
  · exact m.wf_erase a h
  · next hv => exact Memory.wf_place _ (a, v) (m.wf_erase a h) hv (m.absent_erase a)

/-- Writing a run of words keeps the canonical form. -/
theorem Memory.wf_writeAll (vs : List Word) (m : Memory) (a : Addr) (h : m.wf = true) :
    (m.writeAll a vs).wf = true := by
  induction vs generalizing m a with
  | nil => exact h
  | cons v vs ih => exact ih _ _ (m.wf_write a v h)

theorem Memory.ofImage_lower (vs : List Word) (a : Addr) : ∀ c ∈ Memory.ofImage a vs, a ≤ c.1 := by
  induction vs generalizing a with
  | nil => simp [Memory.ofImage]
  | cons v vs ih =>
    intro c hc
    unfold Memory.ofImage at hc
    split at hc
    · exact le_trans (Nat.le_succ a) (ih _ c hc)
    · rcases List.mem_cons.mp hc with rfl | hc
      · exact le_rfl
      · exact le_trans (Nat.le_succ a) (ih _ c hc)

/-- A loaded image is in canonical form. -/
theorem Memory.wf_ofImage (vs : List Word) (a : Addr) : (Memory.ofImage a vs).wf = true := by
  induction vs generalizing a with
  | nil => rfl
  | cons v vs ih =>
    unfold Memory.ofImage
    split
    · exact ih _
    · next hv =>
      rw [Memory.wf_cons]
      exact ⟨hv, fun d hd => Memory.ofImage_lower vs (a + 1) d hd, ih _⟩

end Sys2Proof.Machine
end

