-- ==== Sys2Proof/Laws/State.lean ====
section
/-! SUPPORT. One lemma per field per update of State, true by rfl. -/

namespace Sys2Proof.Machine

@[simp] theorem State.withMem_cfg (s : State) (m : Memory) : (s.withMem m).cfg = s.cfg := rfl
@[simp] theorem State.withMem_imageLen (s : State) (m : Memory) : (s.withMem m).imageLen = s.imageLen := rfl
@[simp] theorem State.withMem_mem (s : State) (m : Memory) : (s.withMem m).mem = m := rfl
@[simp] theorem State.withMem_ip (s : State) (m : Memory) : (s.withMem m).ip = s.ip := rfl
@[simp] theorem State.withMem_status (s : State) (m : Memory) : (s.withMem m).status = s.status := rfl
@[simp] theorem State.withMem_inQ (s : State) (m : Memory) : (s.withMem m).inQ = s.inQ := rfl
@[simp] theorem State.withMem_inRd (s : State) (m : Memory) : (s.withMem m).inRd = s.inRd := rfl
@[simp] theorem State.withMem_outQ (s : State) (m : Memory) : (s.withMem m).outQ = s.outQ := rfl
@[simp] theorem State.withMem_outRd (s : State) (m : Memory) : (s.withMem m).outRd = s.outRd := rfl
@[simp] theorem State.withMem_fault (s : State) (m : Memory) : (s.withMem m).fault = s.fault := rfl

@[simp] theorem State.jumpTo_cfg (s : State) (a : Addr) : (s.jumpTo a).cfg = s.cfg := rfl
@[simp] theorem State.jumpTo_imageLen (s : State) (a : Addr) : (s.jumpTo a).imageLen = s.imageLen := rfl
@[simp] theorem State.jumpTo_mem (s : State) (a : Addr) : (s.jumpTo a).mem = s.mem := rfl
@[simp] theorem State.jumpTo_ip (s : State) (a : Addr) : (s.jumpTo a).ip = a := rfl
@[simp] theorem State.jumpTo_status (s : State) (a : Addr) : (s.jumpTo a).status = s.status := rfl
@[simp] theorem State.jumpTo_inQ (s : State) (a : Addr) : (s.jumpTo a).inQ = s.inQ := rfl
@[simp] theorem State.jumpTo_inRd (s : State) (a : Addr) : (s.jumpTo a).inRd = s.inRd := rfl
@[simp] theorem State.jumpTo_outQ (s : State) (a : Addr) : (s.jumpTo a).outQ = s.outQ := rfl
@[simp] theorem State.jumpTo_outRd (s : State) (a : Addr) : (s.jumpTo a).outRd = s.outRd := rfl
@[simp] theorem State.jumpTo_fault (s : State) (a : Addr) : (s.jumpTo a).fault = s.fault := rfl

@[simp] theorem State.advance_cfg (s : State) (n : Nat) : (s.advance n).cfg = s.cfg := rfl
@[simp] theorem State.advance_imageLen (s : State) (n : Nat) : (s.advance n).imageLen = s.imageLen := rfl
@[simp] theorem State.advance_mem (s : State) (n : Nat) : (s.advance n).mem = s.mem := rfl
@[simp] theorem State.advance_ip (s : State) (n : Nat) : (s.advance n).ip = s.ip + n := rfl
@[simp] theorem State.advance_status (s : State) (n : Nat) : (s.advance n).status = s.status := rfl
@[simp] theorem State.advance_inQ (s : State) (n : Nat) : (s.advance n).inQ = s.inQ := rfl
@[simp] theorem State.advance_inRd (s : State) (n : Nat) : (s.advance n).inRd = s.inRd := rfl
@[simp] theorem State.advance_outQ (s : State) (n : Nat) : (s.advance n).outQ = s.outQ := rfl
@[simp] theorem State.advance_outRd (s : State) (n : Nat) : (s.advance n).outRd = s.outRd := rfl
@[simp] theorem State.advance_fault (s : State) (n : Nat) : (s.advance n).fault = s.fault := rfl

@[simp] theorem State.withStatus_cfg (s : State) (st : Status) : (s.withStatus st).cfg = s.cfg := rfl
@[simp] theorem State.withStatus_imageLen (s : State) (st : Status) : (s.withStatus st).imageLen = s.imageLen := rfl
@[simp] theorem State.withStatus_mem (s : State) (st : Status) : (s.withStatus st).mem = s.mem := rfl
@[simp] theorem State.withStatus_ip (s : State) (st : Status) : (s.withStatus st).ip = s.ip := rfl
@[simp] theorem State.withStatus_status (s : State) (st : Status) : (s.withStatus st).status = st := rfl
@[simp] theorem State.withStatus_inQ (s : State) (st : Status) : (s.withStatus st).inQ = s.inQ := rfl
@[simp] theorem State.withStatus_inRd (s : State) (st : Status) : (s.withStatus st).inRd = s.inRd := rfl
@[simp] theorem State.withStatus_outQ (s : State) (st : Status) : (s.withStatus st).outQ = s.outQ := rfl
@[simp] theorem State.withStatus_outRd (s : State) (st : Status) : (s.withStatus st).outRd = s.outRd := rfl
@[simp] theorem State.withStatus_fault (s : State) (st : Status) : (s.withStatus st).fault = s.fault := rfl

@[simp] theorem State.consumeInput_cfg (s : State) : (s.consumeInput).cfg = s.cfg := rfl
@[simp] theorem State.consumeInput_imageLen (s : State) : (s.consumeInput).imageLen = s.imageLen := rfl
@[simp] theorem State.consumeInput_mem (s : State) : (s.consumeInput).mem = s.mem := rfl
@[simp] theorem State.consumeInput_ip (s : State) : (s.consumeInput).ip = s.ip := rfl
@[simp] theorem State.consumeInput_status (s : State) : (s.consumeInput).status = s.status := rfl
@[simp] theorem State.consumeInput_inQ (s : State) : (s.consumeInput).inQ = s.inQ := rfl
@[simp] theorem State.consumeInput_inRd (s : State) : (s.consumeInput).inRd = s.inRd + 1 := rfl
@[simp] theorem State.consumeInput_outQ (s : State) : (s.consumeInput).outQ = s.outQ := rfl
@[simp] theorem State.consumeInput_outRd (s : State) : (s.consumeInput).outRd = s.outRd := rfl
@[simp] theorem State.consumeInput_fault (s : State) : (s.consumeInput).fault = s.fault := rfl

@[simp] theorem State.emit_cfg (s : State) (v : Word) : (s.emit v).cfg = s.cfg := rfl
@[simp] theorem State.emit_imageLen (s : State) (v : Word) : (s.emit v).imageLen = s.imageLen := rfl
@[simp] theorem State.emit_mem (s : State) (v : Word) : (s.emit v).mem = s.mem := rfl
@[simp] theorem State.emit_ip (s : State) (v : Word) : (s.emit v).ip = s.ip := rfl
@[simp] theorem State.emit_status (s : State) (v : Word) : (s.emit v).status = s.status := rfl
@[simp] theorem State.emit_inQ (s : State) (v : Word) : (s.emit v).inQ = s.inQ := rfl
@[simp] theorem State.emit_inRd (s : State) (v : Word) : (s.emit v).inRd = s.inRd := rfl
@[simp] theorem State.emit_outQ (s : State) (v : Word) : (s.emit v).outQ = s.outQ ++ [v] := rfl
@[simp] theorem State.emit_outRd (s : State) (v : Word) : (s.emit v).outRd = s.outRd := rfl
@[simp] theorem State.emit_fault (s : State) (v : Word) : (s.emit v).fault = s.fault := rfl

@[simp] theorem State.enqueueInput_cfg (s : State) (v : Word) : (s.enqueueInput v).cfg = s.cfg := rfl
@[simp] theorem State.enqueueInput_imageLen (s : State) (v : Word) : (s.enqueueInput v).imageLen = s.imageLen := rfl
@[simp] theorem State.enqueueInput_mem (s : State) (v : Word) : (s.enqueueInput v).mem = s.mem := rfl
@[simp] theorem State.enqueueInput_ip (s : State) (v : Word) : (s.enqueueInput v).ip = s.ip := rfl
@[simp] theorem State.enqueueInput_status (s : State) (v : Word) : (s.enqueueInput v).status = s.status := rfl
@[simp] theorem State.enqueueInput_inQ (s : State) (v : Word) : (s.enqueueInput v).inQ = s.inQ ++ [v] := rfl
@[simp] theorem State.enqueueInput_inRd (s : State) (v : Word) : (s.enqueueInput v).inRd = s.inRd := rfl
@[simp] theorem State.enqueueInput_outQ (s : State) (v : Word) : (s.enqueueInput v).outQ = s.outQ := rfl
@[simp] theorem State.enqueueInput_outRd (s : State) (v : Word) : (s.enqueueInput v).outRd = s.outRd := rfl
@[simp] theorem State.enqueueInput_fault (s : State) (v : Word) : (s.enqueueInput v).fault = s.fault := rfl

@[simp] theorem State.consumeOutput_cfg (s : State) : (s.consumeOutput).cfg = s.cfg := rfl
@[simp] theorem State.consumeOutput_imageLen (s : State) : (s.consumeOutput).imageLen = s.imageLen := rfl
@[simp] theorem State.consumeOutput_mem (s : State) : (s.consumeOutput).mem = s.mem := rfl
@[simp] theorem State.consumeOutput_ip (s : State) : (s.consumeOutput).ip = s.ip := rfl
@[simp] theorem State.consumeOutput_status (s : State) : (s.consumeOutput).status = s.status := rfl
@[simp] theorem State.consumeOutput_inQ (s : State) : (s.consumeOutput).inQ = s.inQ := rfl
@[simp] theorem State.consumeOutput_inRd (s : State) : (s.consumeOutput).inRd = s.inRd := rfl
@[simp] theorem State.consumeOutput_outQ (s : State) : (s.consumeOutput).outQ = s.outQ := rfl
@[simp] theorem State.consumeOutput_outRd (s : State) : (s.consumeOutput).outRd = s.outRd + 1 := rfl
@[simp] theorem State.consumeOutput_fault (s : State) : (s.consumeOutput).fault = s.fault := rfl

@[simp] theorem raise_cfg (k : FaultKind) (s : State) : (raise k s).cfg = s.cfg := rfl
@[simp] theorem raise_imageLen (k : FaultKind) (s : State) : (raise k s).imageLen = s.imageLen := rfl
@[simp] theorem raise_mem (k : FaultKind) (s : State) : (raise k s).mem = s.mem := rfl
@[simp] theorem raise_ip (k : FaultKind) (s : State) : (raise k s).ip = s.ip := rfl
@[simp] theorem raise_status (k : FaultKind) (s : State) : (raise k s).status = s.status := rfl
@[simp] theorem raise_inQ (k : FaultKind) (s : State) : (raise k s).inQ = s.inQ := rfl
@[simp] theorem raise_inRd (k : FaultKind) (s : State) : (raise k s).inRd = s.inRd := rfl
@[simp] theorem raise_outQ (k : FaultKind) (s : State) : (raise k s).outQ = s.outQ := rfl
@[simp] theorem raise_outRd (k : FaultKind) (s : State) : (raise k s).outRd = s.outRd := rfl
@[simp] theorem raise_fault (k : FaultKind) (s : State) : (raise k s).fault = some (k, s.ip) := rfl

end Sys2Proof.Machine
end

