-- ==== Sys2Proof/Laws/Ops.lean ====
section
/-! SUPPORT. One lemma per shared operation that says everything it can do; a proof cites it and does not unfold the operation. -/

namespace Sys2Proof.Machine

/-! ### Accesses and addresses -/

theorem memRead_ok_iff (s : State) (a : Addr) (v : Word) :
    memRead s a = .ok v ↔ addrOk s a = true ∧ v = s.mem.read a := by
  unfold memRead
  split
  · next h => simp [h]; try exact eq_comm
  · next h => simp [h]; try exact eq_comm

theorem memRead_error_iff (s : State) (a : Addr) (f : FaultKind) :
    memRead s a = .error f ↔ addrOk s a = false ∧ f = .addressLimit a := by
  unfold memRead
  split
  · next h => simp [h]; try exact eq_comm
  · next h => simp [h]; try exact eq_comm

theorem memWrite_ok_iff (s t : State) (a : Addr) (v : Word) :
    memWrite s a v = .ok t ↔ addrOk s a = true ∧ t = s.withMem (s.mem.write a v) := by
  unfold memWrite
  split
  · next h => simp [h]; try exact eq_comm
  · next h => simp [h]; try exact eq_comm

theorem memWrite_error_iff (s : State) (a : Addr) (v : Word) (f : FaultKind) :
    memWrite s a v = .error f ↔ addrOk s a = false ∧ f = .addressLimit a := by
  unfold memWrite
  split
  · next h => simp [h]; try exact eq_comm
  · next h => simp [h]; try exact eq_comm

/-- A word that is not negative has its value as its natural number. -/
theorem toNat_eq_toInt (v : Word) (h : 0 ≤ v.toInt) : (v.toNat : Int) = v.toInt := by
  have hv := v.isLt
  rw [BitVec.toInt_eq_toNat_cond] at h ⊢
  split at h
  · next hc => rw [if_pos hc]
  · omega

theorem toAddr_ok_iff (v : Word) (a : Addr) : toAddr v = .ok a ↔ 0 ≤ v.toInt ∧ a = v.toNat := by
  unfold toAddr
  split
  · next h => simp [Int.not_le.mpr h]
  · next h => simp [Int.not_lt.mp h]; exact eq_comm

theorem toAddr_error_iff (v : Word) (f : FaultKind) : toAddr v = .error f ↔ v.toInt < 0 ∧ f = .negativeAddress v := by
  unfold toAddr
  split
  · next h => simp [h]; exact eq_comm
  · next h => simp [h]

/-! ### Operands -/

theorem operandWord_ok_iff (s : State) (k : Nat) (v : Word) :
    operandWord s k = .ok v ↔ addrOk s (s.ip + k) = true ∧ v = operandAt s k :=
  memRead_ok_iff s (s.ip + k) v

theorem operandWord_error_iff (s : State) (k : Nat) (f : FaultKind) :
    operandWord s k = .error f ↔ addrOk s (s.ip + k) = false ∧ f = .addressLimit (s.ip + k) :=
  memRead_error_iff s (s.ip + k) f

/-- `src` answers a value exactly where the spec's source operand reads it. -/
theorem src_ok_iff (s : State) (m : Mode) (k : Nat) (v : Word) : src s m k = .ok v ↔ SourceReads s m k v := by
  unfold src SourceReads
  cases hp : operandWord s k with
  | error f => simp [((operandWord_error_iff s k f).mp hp).1]
  | ok p =>
    obtain ⟨hk, rfl⟩ := (operandWord_ok_iff s k p).mp hp
    cases m with
    | immediate => simp [hk]; exact eq_comm
    | position =>
      cases ha : toAddr (operandAt s k) with
      | error f =>
        have h0 := ((toAddr_error_iff _ _).mp ha).1
        simp [hk, ha, Int.not_le.mpr h0]
      | ok a =>
        obtain ⟨h0, rfl⟩ := (toAddr_ok_iff _ _).mp ha
        simp [hk, ha, h0, memRead_ok_iff]

/-- `src` raises a fault exactly where the spec's source operand does. -/
theorem src_error_iff (s : State) (m : Mode) (k : Nat) (f : FaultKind) : src s m k = .error f ↔ SourceFaults s m k f := by
  unfold src SourceFaults
  cases hp : operandWord s k with
  | error f' =>
    obtain ⟨hk, rfl⟩ := (operandWord_error_iff s k f').mp hp
    simp [hk]; exact eq_comm
  | ok p =>
    obtain ⟨hk, rfl⟩ := (operandWord_ok_iff s k p).mp hp
    cases m with
    | immediate => simp [hk]
    | position =>
      cases ha : toAddr (operandAt s k) with
      | error f' =>
        obtain ⟨h0, rfl⟩ := (toAddr_error_iff _ _).mp ha
        have h1 : ¬ 0 ≤ (operandAt s k).toInt := by omega
        simp [hk, ha, h0, h1]; exact eq_comm
      | ok a =>
        obtain ⟨h0, rfl⟩ := (toAddr_ok_iff _ _).mp ha
        have h1 : ¬ (operandAt s k).toInt < 0 := by omega
        simp [hk, ha, h0, h1, memRead_error_iff]

/-- `dst` answers an address exactly where the spec's destination operand is it. -/
theorem dst_ok_iff (s : State) (k : Nat) (d : Addr) : dst s k = .ok d ↔ DestReads s k d := by
  unfold dst DestReads
  cases hp : operandWord s k with
  | error f => simp [((operandWord_error_iff s k f).mp hp).1]
  | ok p =>
    obtain ⟨hk, rfl⟩ := (operandWord_ok_iff s k p).mp hp
    simp only [toAddr_ok_iff, hk, true_and]
    constructor
    · rintro ⟨h0, rfl⟩
      exact ⟨h0, toNat_eq_toInt _ h0⟩
    · rintro ⟨h0, h1⟩
      exact ⟨h0, by exact_mod_cast h1.trans (toNat_eq_toInt _ h0).symm⟩

/-- `dst` raises a fault exactly where the spec's destination operand does. -/
theorem dst_error_iff (s : State) (k : Nat) (f : FaultKind) : dst s k = .error f ↔ DestFaults s k f := by
  unfold dst DestFaults
  cases hp : operandWord s k with
  | error f' =>
    obtain ⟨hk, rfl⟩ := (operandWord_error_iff s k f').mp hp
    simp [hk]; exact eq_comm
  | ok p =>
    obtain ⟨hk, rfl⟩ := (operandWord_ok_iff s k p).mp hp
    simp [hk, toAddr_error_iff]

/-! ### Results -/

theorem inRange_iff (r : Int) : inRange r = true ↔ -2 ^ 63 ≤ r ∧ r ≤ 2 ^ 63 - 1 := by
  simp [inRange]

/-- A value in range is the value of its word. -/
theorem wordOf_toInt (r : Int) (h : inRange r = true) : (wordOf r).toInt = r := by
  obtain ⟨h1, h2⟩ := (inRange_iff r).mp h
  unfold wordOf
  rw [BitVec.toInt_ofInt]
  exact Int.bmod_eq_of_le (by omega) (by omega)

/-- The wrapped value is always in range. -/
theorem inRange_wrap64 (r : Int) : inRange (wrap64 r) = true := by
  rw [inRange_iff]
  unfold wrap64
  omega

theorem arithResult_ok_iff (c : Config) (a b : Word) (r : Int) (v : Word) :
    arithResult c a b r = .ok v ↔
      (inRange r = true ∧ v = wordOf r) ∨
        (inRange r = false ∧ c.overflowPolicy = .wrap ∧ v = wordOf (wrap64 r)) := by
  unfold arithResult
  cases inRange r <;> cases c.overflowPolicy <;> (simp; try exact eq_comm)

theorem arithResult_error_iff (c : Config) (a b : Word) (r : Int) (f : FaultKind) :
    arithResult c a b r = .error f ↔
      inRange r = false ∧ c.overflowPolicy = .fault ∧ f = .arithmeticOverflow a b := by
  unfold arithResult
  cases inRange r <;> cases c.overflowPolicy <;> (simp; try exact eq_comm)

/-! ### Settling an instruction -/

theorem settle_ok (s t : State) (r : Except FaultKind State) (h : r = .ok t) : settle s r = .next t := by
  subst h; rfl

theorem settle_error (s : State) (r : Except FaultKind State) (k : FaultKind) (h : r = .error k) :
    settle s r = .next (raise k s) := by
  subst h; rfl

/-- What settling can answer: the instruction's own final state, or the fault taken on the state it began with. -/
theorem settle_next (s t : State) (r : Except FaultKind State) (h : settle s r = .next t) :
    r = .ok t ∨ ∃ k, r = .error k ∧ t = raise k s := by
  cases r with
  | ok u => left; simpa [settle] using h
  | error k => right; exact ⟨k, rfl, by simpa [settle] using h.symm⟩

/-- The final state of the four three-operand instructions. -/
theorem threeOperand_ok_iff (g : Config → Word → Word → Except FaultKind Word) (m1 m2 : Mode) (s t : State) :
    threeOperand g m1 m2 s = .ok t ↔
      ∃ a b d r, src s m1 1 = .ok a ∧ src s m2 2 = .ok b ∧ dst s 3 = .ok d ∧ g s.cfg a b = .ok r ∧
        addrOk s d = true ∧ t = (s.withMem (s.mem.write d r)).advance 4 := by
  unfold threeOperand
  cases src s m1 1 with
  | error f => simp [bind, Except.bind]
  | ok a =>
    cases src s m2 2 with
    | error f => simp [bind, Except.bind]
    | ok b =>
      cases dst s 3 with
      | error f => simp [bind, Except.bind]
      | ok d =>
        cases hg : g s.cfg a b with
        | error f => simp [bind, Except.bind, hg]
        | ok r =>
          cases hw : memWrite s d r with
          | error f =>
            have := ((memWrite_error_iff s d r f).mp hw).1
            simp [bind, Except.bind, hg, hw, this]
          | ok u =>
            obtain ⟨h1, rfl⟩ := (memWrite_ok_iff s u d r).mp hw
            simp [bind, Except.bind, hg, hw, h1]; exact eq_comm

/-- Why a three-operand instruction faults, in the order of 60_exceptions.md R208. -/
theorem threeOperand_error_iff (g : Config → Word → Word → Except FaultKind Word) (m1 m2 : Mode) (s : State)
    (f : FaultKind) :
    threeOperand g m1 m2 s = .error f ↔
      src s m1 1 = .error f ∨
        (∃ a, src s m1 1 = .ok a ∧
          (src s m2 2 = .error f ∨
            (∃ b, src s m2 2 = .ok b ∧
              (dst s 3 = .error f ∨
                (∃ d, dst s 3 = .ok d ∧
                  (g s.cfg a b = .error f ∨
                    (∃ r, g s.cfg a b = .ok r ∧ addrOk s d = false ∧ f = .addressLimit d))))))) := by
  unfold threeOperand
  cases src s m1 1 with
  | error f => simp [bind, Except.bind]
  | ok a =>
    cases src s m2 2 with
    | error f => simp [bind, Except.bind]
    | ok b =>
      cases dst s 3 with
      | error f => simp [bind, Except.bind]
      | ok d =>
        cases hg : g s.cfg a b with
        | error f => simp [bind, Except.bind, hg]
        | ok r =>
          cases hw : memWrite s d r with
          | error f' =>
            obtain ⟨h1, rfl⟩ := (memWrite_error_iff s d r f').mp hw
            simp [bind, Except.bind, hg, hw, h1]; exact eq_comm
          | ok u =>
            have := ((memWrite_ok_iff s u d r).mp hw).1
            simp [bind, Except.bind, hg, hw, this]

/-- The final state of Input: blocked, or the oldest unread entry written and consumed. -/
theorem inputEffect_ok_iff (s t : State) :
    inputEffect s = .ok t ↔
      ∃ d, dst s 1 = .ok d ∧
        ((s.inQ[s.inRd]? = none ∧ t = s.withStatus .waitingForInput) ∨
          (∃ v, s.inQ[s.inRd]? = some v ∧ addrOk s d = true ∧
            t = ((s.withMem (s.mem.write d v)).consumeInput).advance 2)) := by
  unfold inputEffect
  cases dst s 1 with
  | error f => simp [bind, Except.bind]
  | ok d =>
    cases hq : s.inQ[s.inRd]? with
    | none => simp [bind, Except.bind]; exact eq_comm
    | some v =>
      cases hw : memWrite s d v with
      | error f =>
        have := ((memWrite_error_iff s d v f).mp hw).1
        simp [bind, Except.bind, hw, this]
      | ok u =>
        obtain ⟨h1, rfl⟩ := (memWrite_ok_iff s u d v).mp hw
        simp [bind, Except.bind, hw, h1]; exact eq_comm

/-- Why Input faults. -/
theorem inputEffect_error_iff (s : State) (f : FaultKind) :
    inputEffect s = .error f ↔
      dst s 1 = .error f ∨
        (∃ d, dst s 1 = .ok d ∧ ∃ v, s.inQ[s.inRd]? = some v ∧ addrOk s d = false ∧ f = .addressLimit d) := by
  unfold inputEffect
  cases dst s 1 with
  | error f => simp [bind, Except.bind]
  | ok d =>
    cases hq : s.inQ[s.inRd]? with
    | none => simp [bind, Except.bind]
    | some v =>
      cases hw : memWrite s d v with
      | error f' =>
        obtain ⟨h1, rfl⟩ := (memWrite_error_iff s d v f').mp hw
        simp [bind, Except.bind, hw, h1]; exact eq_comm
      | ok u =>
        have := ((memWrite_ok_iff s u d v).mp hw).1
        simp [bind, Except.bind, hw, this]

/-- The final state of Output. -/
theorem outputEffect_ok_iff (m1 : Mode) (s t : State) :
    outputEffect m1 s = .ok t ↔
      ∃ a, src s m1 1 = .ok a ∧ queueHasRoom s (unreadOutput s) = true ∧ t = (s.emit a).advance 2 := by
  unfold outputEffect
  cases src s m1 1 with
  | error f => simp [bind, Except.bind]
  | ok a => cases hq : queueHasRoom s (unreadOutput s) <;> (simp [bind, Except.bind]; try exact eq_comm)

/-- Why Output faults. -/
theorem outputEffect_error_iff (m1 : Mode) (s : State) (f : FaultKind) :
    outputEffect m1 s = .error f ↔
      src s m1 1 = .error f ∨
        ((∃ a, src s m1 1 = .ok a) ∧ queueHasRoom s (unreadOutput s) = false ∧ f = .queueLimit) := by
  unfold outputEffect
  cases src s m1 1 with
  | error f => simp [bind, Except.bind]
  | ok a => cases hq : queueHasRoom s (unreadOutput s) <;> (simp [bind, Except.bind]; try exact eq_comm)

/-- The final state of a jump. -/
theorem jumpWhen_ok_iff (g : Word → Bool) (m1 m2 : Mode) (s t : State) :
    jumpWhen g m1 m2 s = .ok t ↔
      ∃ c w, src s m1 1 = .ok c ∧ src s m2 2 = .ok w ∧
        ((g c = true ∧ ∃ a, toAddr w = .ok a ∧ t = s.jumpTo a) ∨ (g c = false ∧ t = s.advance 3)) := by
  unfold jumpWhen
  cases src s m1 1 with
  | error f => simp [bind, Except.bind]
  | ok c =>
    cases src s m2 2 with
    | error f => simp [bind, Except.bind]
    | ok w =>
      cases hg : g c with
      | false => simp [bind, Except.bind, hg]; exact eq_comm
      | true => cases ha : toAddr w <;> (simp [bind, Except.bind, hg, ha]; try exact eq_comm)

/-- Why a jump faults. -/
theorem jumpWhen_error_iff (g : Word → Bool) (m1 m2 : Mode) (s : State) (f : FaultKind) :
    jumpWhen g m1 m2 s = .error f ↔
      src s m1 1 = .error f ∨
        (∃ c, src s m1 1 = .ok c ∧
          (src s m2 2 = .error f ∨ (∃ w, src s m2 2 = .ok w ∧ g c = true ∧ toAddr w = .error f))) := by
  unfold jumpWhen
  cases src s m1 1 with
  | error f => simp [bind, Except.bind]
  | ok c =>
    cases src s m2 2 with
    | error f => simp [bind, Except.bind]
    | ok w =>
      cases hg : g c with
      | false => simp [bind, Except.bind, hg]
      | true => cases ha : toAddr w <;> (simp [bind, Except.bind, hg, ha]; try exact eq_comm)

/-! ### Decoding -/

theorem instrOfOpcode_some (op : Nat) (m1 m2 m3 : Mode) (i : Instr) (h : instrOfOpcode op m1 m2 m3 = some i) :
    opcodeOf i = op ∧ modesOf i = (m1, m2, m3) ∧ op ∈ knownOpcodes := by
  unfold instrOfOpcode at h
  split at h <;> simp at h <;> subst h <;> simp [opcodeOf, modesOf, knownOpcodes]

theorem instrOfOpcode_none_iff (op : Nat) (m1 m2 m3 : Mode) :
    instrOfOpcode op m1 m2 m3 = none ↔ op ∉ knownOpcodes := by
  unfold instrOfOpcode
  split <;> simp_all [knownOpcodes]

/-- A word decodes to an instruction exactly where it is not negative and its opcode names that instruction. -/
theorem decode_ok_iff (w : Word) (i : Instr) :
    decode w = .ok i ↔ 0 ≤ w.toInt ∧
      instrOfOpcode (w.toNat % 100) (modeOfDigit (digit 2 w.toNat)) (modeOfDigit (digit 3 w.toNat))
        (modeOfDigit (digit 4 w.toNat)) = some i := by
  unfold decode
  split
  · next h => simp [Int.not_le.mpr h]
  · next h =>
    cases instrOfOpcode (w.toNat % 100) (modeOfDigit (digit 2 w.toNat)) (modeOfDigit (digit 3 w.toNat))
      (modeOfDigit (digit 4 w.toNat)) <;> simp [Int.not_lt.mp h]

/-! ### Conditions -/

/-- A condition word is true exactly where its value is not 0. -/
theorem wordIsTrue_iff (c : Word) : wordIsTrue c = true ↔ c.toInt ≠ 0 := by
  have h : c = 0 ↔ c.toInt = 0 := by rw [← BitVec.toInt_inj]; simp
  simp only [wordIsTrue, bne_iff_ne]
  exact not_congr h

theorem queueHasRoom_iff (s : State) (n : Nat) :
    queueHasRoom s n = true ↔ ∀ k, s.cfg.queueLimit = some k → n < k := by
  unfold queueHasRoom
  cases s.cfg.queueLimit <;> simp

theorem runContinues_iff (s : State) : runContinues s = true ↔ s.status = .running ∧ s.fault = none := by
  simp [runContinues]

/-! ### The engine -/

/-- What a step of the engine can answer: a fault taken, or the decoded instruction's own answer. -/
theorem engineStep_next (s t : State) (h : engineStep s = .next t) :
    (∃ k, t = raise k s) ∨
      ∃ i, addrOk s s.ip = true ∧ decode (s.mem.read s.ip) = .ok i ∧ exec i s = .next t := by
  unfold engineStep fetch at h
  cases hr : memRead s s.ip with
  | error k => simp only [hr] at h; left; exact ⟨k, by simpa using h.symm⟩
  | ok w =>
    obtain ⟨h1, rfl⟩ := (memRead_ok_iff s s.ip w).mp hr
    cases hd : decode (s.mem.read s.ip) with
    | ok i => simp only [hr, hd] at h; exact .inr ⟨i, h1, rfl, h⟩
    | error e => cases e; simp only [hr, hd] at h; left; exact ⟨_, by simpa using h.symm⟩

/-- A fetch that answers an instruction read a word below the limit that decodes to it. -/
theorem fetch_ok_iff (s : State) (i : Instr) :
    fetch s = .ok i ↔ addrOk s s.ip = true ∧ decode (s.mem.read s.ip) = .ok i := by
  unfold fetch
  cases hr : memRead s s.ip with
  | error f => simp [((memRead_error_iff s s.ip f).mp hr).1]
  | ok w =>
    obtain ⟨h1, rfl⟩ := (memRead_ok_iff s s.ip w).mp hr
    cases hd : decode (s.mem.read s.ip) with
    | ok j => simp [h1, hd]
    | error e => cases e; simp [h1, hd]

theorem engineStep_of_fetch (s : State) (i : Instr) (h : fetch s = .ok i) : engineStep s = exec i s := by
  simp [engineStep, h]

theorem engineStep_of_fetch_error (s : State) (k : FaultKind) (h : fetch s = .error k) :
    engineStep s = .next (raise k s) := by
  simp [engineStep, h]

/-- A step that answers a next state: the engine ran with no fault recorded, or a Halted instance raised ExecuteAfterHalt. -/
theorem step_next (s t : State) (h : step s = .next t) :
    s.fault = none ∧
      ((s.status = .running ∧ engineStep s = .next t) ∨
        (s.status = .waitingForInput ∧ engineStep (s.withStatus .running) = .next t) ∨
        (s.status = .halted ∧ t = raise .executeAfterHalt s)) := by
  unfold step stepOnce at h
  cases hf : s.fault with
  | some p => simp [hf] at h
  | none =>
    cases hst : s.status <;> simp_all

/-- What a host command that answers a next state did. -/
theorem hostCommand_next (fuel : Nat) (c : HostCommand) (s t : State) (r : Reply)
    (h : hostCommand fuel c s = some (.next (t, r))) :
    s.fault = none ∧
      ((∃ v, c = .submitInput v ∧ r = .nothing ∧ queueHasRoom s (unreadInput s) = true ∧
          t = (s.enqueueInput v).withStatus (if s.status = .waitingForInput then .running else s.status)) ∨
        (c = .run ∧ r = .nothing ∧ runCommand fuel s = some (.next t)) ∨
        (c = .takeOutput ∧ t = (takeOutput s).1 ∧ r = .optWord (takeOutput s).2) ∨
        (c ≠ .run ∧ c ≠ .takeOutput ∧ t = s)) := by
  cases hf : s.fault with
  | some p => cases c <;> simp [hostCommand, submitInput, unlessFaulted, runCommand, hf] at h
  | none =>
    refine ⟨rfl, ?_⟩
    cases c <;> simp [hostCommand, unlessFaulted, hf, submitInput] at h
    case submitInput v =>
      by_cases hq : queueHasRoom s (unreadInput s) = true <;> simp [hq] at h
      exact .inl ⟨v, rfl, h.2.symm, hq, h.1.symm⟩
    case run =>
      cases hr : runCommand fuel s with
      | none => simp [hr] at h
      | some o =>
        cases o <;> simp [hr] at h
        obtain ⟨rfl, rfl⟩ := h
        exact .inr (.inl ⟨rfl, rfl, rfl⟩)
    case takeOutput => exact .inr (.inr (.inl ⟨rfl, h.1.symm, h.2.symm⟩))
    all_goals exact .inr (.inr (.inr ⟨by simp, by simp, h.1.symm⟩))

/-- The instruction placed by `withFetchWord` is the one the next step runs, where no limit bars the fetch. -/
theorem step_withFetchWord (s : State) (nbits w : Nat) (i : Instr) (hl : s.cfg.addrLimit = none)
    (h : decodeTableWord nbits w = some i) :
    step (s.withFetchWord nbits w) = exec i (s.withFetchWord nbits w) := by
  have hf : fetch (s.withFetchWord nbits w) = .ok i := by
    rw [fetch_ok_iff]
    refine ⟨by simp [addrOk, State.withFetchWord, placeFetchWord, hl], ?_⟩
    have hr : (s.withFetchWord nbits w).mem.read (s.withFetchWord nbits w).ip = BitVec.ofNat 64 (w % 2 ^ nbits) := by
      simp only [State.withFetchWord, placeFetchWord, tableWords, Memory.writeAll, Memory.read_write]
      simp [Nat.add_assoc]
    rw [hr]
    unfold decodeTableWord tableWords decodeWords at h
    cases hd : decode (BitVec.ofNat 64 (w % 2 ^ nbits)) with
    | ok j => simp [hd, Except.toOption] at h; rw [h]
    | error e => simp [hd, Except.toOption] at h
  have hs : step (s.withFetchWord nbits w) = engineStep (s.withFetchWord nbits w) := by
    simp [step, stepOnce, State.withFetchWord, placeFetchWord]
  rw [hs, engineStep_of_fetch _ _ hf]

/-- What grouping can do: no word is lost or reordered, no group is empty, none exceeds the group size, and each but the last has
it (R230). -/
theorem groupsFrom_spec (n : Nat) (cur ws : List Word) (hn : 0 < n) (hc : cur.length < n) :
    (groupsFrom n cur ws).flatten = cur ++ ws ∧ (∀ g ∈ groupsFrom n cur ws, 0 < g.length ∧ g.length ≤ n) ∧
      ∀ g ∈ (groupsFrom n cur ws).dropLast, g.length = n := by
  induction ws generalizing cur with
  | nil => cases cur <;> simp_all [groupsFrom]; omega
  | cons w ws ih =>
    unfold groupsFrom
    split
    · obtain ⟨h1, h2, h3⟩ := ih [] (by simpa using hn)
      have hl : (cur ++ [w]).length = n := by simp; omega
      refine ⟨by simp [h1], fun g hg => ?_, fun g hg => ?_⟩
      · rcases List.mem_cons.mp hg with rfl | hg
        · omega
        · exact h2 g hg
      · cases hr : groupsFrom n [] ws with
        | nil => simp [hr] at hg
        | cons x xs =>
          rw [hr, List.dropLast_cons_cons] at hg
          rcases List.mem_cons.mp hg with rfl | hg
          · exact hl
          · exact h3 g (hr ▸ hg)
    · obtain ⟨h1, h2, h3⟩ := ih (cur ++ [w]) (by simp; omega)
      exact ⟨by simp [h1], h2, h3⟩

/-- The groups of a drain, joined, are the drain. -/
theorem groupsOf_flatten (n : Nat) (ws : List Word) (hn : 0 < n) : (groupsOf n ws).flatten = ws := by
  simpa [groupsOf] using (groupsFrom_spec n [] ws hn (by simpa using hn)).1

/-- A list of operands resolves exactly where each operand does, to their words in order (30_encoding.md R104). -/
theorem resolveAll_eq_some (table : List (String × Addr)) (vs : List AsmValue) (ws : List Word) :
    resolveAll table vs = some ws ↔ vs.map (resolveValue table) = ws.map some := by
  induction vs generalizing ws with
  | nil => cases ws <;> simp [resolveAll]
  | cons v vs ih =>
    cases hv : resolveValue table v <;> cases hr : resolveAll table vs <;> cases ws <;> simp_all [resolveAll]

end Sys2Proof.Machine
end

