-- ==== Sys2Proof/Laws/PerInstr.lean ====
section
/-! SUPPORT. The canonical form of an instruction, constructor by constructor (30_encoding.md R98, R101, R103). -/

namespace Sys2Proof.Laws.CanonicalForm

/-- The canonical form is well formed, keeps the opcode and the length, and is its own canonical form. -/
def Statement (i : Instr) : Prop :=
  (canonical i).wellFormed = true ∧ opcodeOf (canonical i) = opcodeOf i ∧ lengthOf (canonical i) = lengthOf i ∧
    canonical (canonical i) = canonical i

theorem add (m1 m2 m3 : Mode) : Statement (.add m1 m2 m3) := ⟨rfl, rfl, rfl, rfl⟩
theorem multiply (m1 m2 m3 : Mode) : Statement (.multiply m1 m2 m3) := ⟨rfl, rfl, rfl, rfl⟩
theorem input (m1 m2 m3 : Mode) : Statement (.input m1 m2 m3) := ⟨rfl, rfl, rfl, rfl⟩
theorem output (m1 m2 m3 : Mode) : Statement (.output m1 m2 m3) := ⟨rfl, rfl, rfl, rfl⟩
theorem jumpIfTrue (m1 m2 m3 : Mode) : Statement (.jumpIfTrue m1 m2 m3) := ⟨rfl, rfl, rfl, rfl⟩
theorem jumpIfFalse (m1 m2 m3 : Mode) : Statement (.jumpIfFalse m1 m2 m3) := ⟨rfl, rfl, rfl, rfl⟩
theorem lessThan (m1 m2 m3 : Mode) : Statement (.lessThan m1 m2 m3) := ⟨rfl, rfl, rfl, rfl⟩
theorem equals (m1 m2 m3 : Mode) : Statement (.equals m1 m2 m3) := ⟨rfl, rfl, rfl, rfl⟩
theorem halt (m1 m2 m3 : Mode) : Statement (.halt m1 m2 m3) := ⟨rfl, rfl, rfl, rfl⟩

end Sys2Proof.Laws.CanonicalForm
end

