-- ==== Sys2Proof/Tests/Slice0.lean ====
section
/-! SUPPORT. Small tests with results taken from spec/ (each names its source), the refusals of the well-formedness check, and
for every statement with hypotheses a state and operands that meet them. -/

namespace Sys2Proof.Tests

open Sys2Proof Sys2Proof.Machine

/-- Words written as integers. -/
def words (l : List Int) : List Word := l.map (BitVec.ofInt 64)

/-- construct with the default parameters. -/
def at0 (image : List Int) : State := construct Config.standard (words image)

/-- construct under an ADDR_LIMIT. -/
def below (n : Nat) (image : List Int) : State := construct { Config.standard with addrLimit := some n } (words image)

/-- construct under a QUEUE_LIMIT. -/
def queued (n : Nat) (image : List Int) : State := construct { Config.standard with queueLimit := some n } (words image)

/-- construct under OVERFLOW_POLICY Wrap. -/
def wrapping (image : List Int) : State := construct { Config.standard with overflowPolicy := .wrap } (words image)

/-- The state with these values buffered as input. -/
def given (s : State) (l : List Int) : State := { s with inQ := s.inQ ++ words l }

/-- The state after one step, where there is one. -/
def after (s : State) : Option State :=
  match step s with
  | .next t => some t
  | _ => none

/-! ### Well-formedness: one ill-formed term for each check -/

theorem test_illformed_input_m2 : (Instr.input .position .immediate .position).wellFormed = false := by decide
theorem test_illformed_input_m3 : (Instr.input .position .position .immediate).wellFormed = false := by decide
theorem test_illformed_output_m2 : (Instr.output .position .immediate .position).wellFormed = false := by decide
theorem test_illformed_output_m3 : (Instr.output .position .position .immediate).wellFormed = false := by decide
theorem test_illformed_jumpIfTrue_m3 : (Instr.jumpIfTrue .position .position .immediate).wellFormed = false := by decide
theorem test_illformed_jumpIfFalse_m3 : (Instr.jumpIfFalse .position .position .immediate).wellFormed = false := by decide
theorem test_illformed_halt_m1 : (Instr.halt .immediate .position .position).wellFormed = false := by decide
theorem test_illformed_halt_m2 : (Instr.halt .position .immediate .position).wellFormed = false := by decide
theorem test_illformed_halt_m3 : (Instr.halt .position .position .immediate).wellFormed = false := by decide
theorem test_wellformed_add_immediate_dst : (Instr.add .position .position .immediate).wellFormed = true := by decide

/-! ### Decoding: words written out from 30_encoding.md and 95_test_vectors.md section 2.1 -/

/-- V-D5: digits c b a oo of 10101. -/
theorem test_decode_add : decode 10101 = .ok (.add .immediate .position .immediate) := rfl
/-- V-D4. -/
theorem test_decode_multiply : decode 1002 = .ok (.multiply .position .immediate .position) := rfl
/-- The word 103 of 42_io.md R170. -/
theorem test_decode_input : decode 103 = .ok (.input .immediate .position .position) := rfl
/-- V-D6: mode digit 2 is Immediate. -/
theorem test_decode_output : decode 204 = .ok (.output .immediate .position .position) := rfl
/-- R106. -/
theorem test_decode_jumpIfTrue : decode 1005 = .ok (.jumpIfTrue .position .immediate .position) := rfl
/-- The word 1106 of 43_control.md R186. -/
theorem test_decode_jumpIfFalse : decode 1106 = .ok (.jumpIfFalse .immediate .immediate .position) := rfl
/-- The word 1107 of 41_arithmetic.md R152. -/
theorem test_decode_lessThan : decode 1107 = .ok (.lessThan .immediate .immediate .position) := rfl
/-- The word 1108 of 41_arithmetic.md R153. -/
theorem test_decode_equals : decode 1108 = .ok (.equals .immediate .immediate .position) := rfl
/-- V-D9. -/
theorem test_decode_halt : decode 11199 = .ok (.halt .immediate .immediate .immediate) := rfl
/-- V-D7: digits of weight 10^5 and above are ignored. -/
theorem test_decode_high_digit : decode 1000001 = .ok (.add .position .position .position) := rfl
/-- V-D10 to V-D16. -/
theorem test_decode_refused :
    ([0, 9, 98, 100, 12345, -1, -99] : List Int).all (fun w =>
      (decode (BitVec.ofInt 64 w)).toOption == none) = true := by decide
/-- The canonical words of R150 to R190 and R103. -/
theorem test_encode :
    [encode (.add .position .immediate .position), encode (.multiply .immediate .immediate .position),
      encode (.input .position .position .position), encode (.output .immediate .position .position),
      encode (.jumpIfTrue .position .immediate .position), encode (.jumpIfFalse .immediate .immediate .position),
      encode (.lessThan .immediate .immediate .position), encode (.equals .immediate .position .position),
      encode (.halt .immediate .immediate .immediate), encode (.add .immediate .immediate .immediate)] =
    [1001, 1102, 3, 104, 1005, 1106, 1107, 108, 99, 11101] := by decide
/-- The table's numbering: the first 64 bits are the instruction word. -/
theorem test_tableWord : decodeTableWord 64 1005 = some (.jumpIfTrue .position .immediate .position) := rfl
/-- A word placed for the next step is what the next step runs: 104 emits the operand word 0. -/
theorem test_withFetchWord : (after (State.reset.withFetchWord 64 104)).map (fun t => (t.outQ, t.ip)) = some ([0], 2) := by
  decide
/-- The pseudo-instructions of R105: `jmp #6`, `mov [7], [9]`, `mov #7, [9]`. -/
theorem test_assemble_pseudo :
    assemble [⟨none, .jmp ⟨.immediate, .num 6⟩⟩, ⟨none, .mov ⟨.position, .num 7⟩ ⟨.position, .num 9⟩⟩,
      ⟨none, .mov ⟨.immediate, .num 7⟩ ⟨.position, .num 9⟩⟩, ⟨none, .dat [5, 6]⟩] =
    some [1105, 1, 6, 1001, 7, 0, 9, 1101, 7, 0, 9, 5, 6] := by decide
/-- The syntax of R104's example. -/
theorem test_assembly_text :
    textOfStatement (.add ⟨.position, .num 26⟩ (immediateNum (-4)) ⟨.position, .num 26⟩) = "add [26], #-4, [26]" := by
  decide
/-- R104, `name:` stands for the address of the next word; a second definition of the name does not count (log entry 16). -/
theorem test_assemble_label :
    assemble [⟨some "x", .inp ⟨.position, .label "y"⟩⟩, ⟨none, .jmp ⟨.immediate, .label "x"⟩⟩, ⟨some "y", .dat [7]⟩,
      ⟨some "y", .dat [8]⟩] = some [3, 5, 1105, 1, 0, 7, 8] := by decide
/-- R230, coordinate and value triples; the words that fill no group form a shorter one (log entry 17). -/
theorem test_groups : groupsOf 3 [1, 2, 3, 4, 5, 6, 7] = [[1, 2, 3], [4, 5, 6], [7]] := by decide
/-- R230, 40_engine.md R142: a controller that stops on a counter kept over turns, whose instance has not halted. -/
theorem test_interactive_counter :
    interactiveLoop 0 { groupSize := 1, turn := fun (k : Nat) _ => (k - 1, if k = 1 then none else some 0) } 1 1
      { at0 [] with outQ := [5] } = some (.next ({ at0 [] with outQ := [5], outRd := 1 }, 0)) := rfl
/-- R230: a controller that stops on Halted, which it asks is_halted for. -/
theorem test_interactive_halted :
    interactiveLoop 0 { groupSize := 1, turn := fun (k : List (List Word)) o => (k ++ o.groups, if o.halted then none else some 0) }
      1 [] { at0 [] with status := .halted, outQ := [5] } =
      some (.next ({ at0 [] with status := .halted, outQ := [5], outRd := 1 }, [[5]])) := rfl
/-- R200: the cause codes. -/
theorem test_fault_codes :
    [faultCode (.unknownOpcode 0), faultCode .executeAfterHalt, faultCode (.negativeAddress 0),
      faultCode (.arithmeticOverflow 0 0), faultCode (.addressLimit 0), faultCode .queueLimit] = [1, 2, 3, 4, 5, 6] := by
  decide

/-! ### One step each, from 95_test_vectors.md -/

/-- Scenario 1: `[1,0,0,0,99]` leaves 2 at address 0. -/
theorem test_add_scenario : (after (at0 [1, 0, 0, 0, 99])).map (fun t => (t.mem.read 0, t.ip)) = some (2, 4) := by decide
/-- V-A4, both policies: 2^63 - 1 + 1. -/
theorem test_add_overflow :
    ((after (at0 [1101, 2 ^ 63 - 1, 1, 5, 99, 0])).map (fun t => (t.mem.read 5, t.ip, t.fault.map fun p => (faultCode p.1, p.2))) =
        some (0, 0, some (4, 0))) ∧
      (after (wrapping [1101, 2 ^ 63 - 1, 1, 5, 99, 0])).map (fun t => ((t.mem.read 5).toInt, t.fault)) =
        some (-2 ^ 63, none) := by decide
/-- Scenario 4's `1002,27,2,27` with 5 at 27 (here at 4). -/
theorem test_multiply_scenario : (after (at0 [1002, 4, 2, 4, 5])).map (fun t => (t.mem.read 4, t.ip)) = some (10, 4) := by decide
/-- V-X9: -2^62 * 2 = -2^63 is exact. -/
theorem test_multiply_lowest : (after (at0 [1102, -2 ^ 62, 2, 5, 99, 0])).map (fun t => ((t.mem.read 5).toInt, t.fault)) =
    some (-2 ^ 63, none) := by decide
/-- V-C6 and V-C4. -/
theorem test_lessThan_signed :
    (after (at0 [1107, 2 ^ 63 - 1, -2 ^ 63, 5, 99, 7])).map (fun t => t.mem.read 5) = some 0 ∧
      (after (at0 [1107, -1, 0, 5, 99, 7])).map (fun t => t.mem.read 5) = some 1 := by decide
/-- V-C9 and V-C10. -/
theorem test_equals :
    (after (at0 [1108, -2 ^ 63, -2 ^ 63, 5, 99, 7])).map (fun t => t.mem.read 5) = some 1 ∧
      (after (at0 [1108, 0, -1, 5, 99, 7])).map (fun t => t.mem.read 5) = some 0 := by decide
/-- V-I2: an Immediate digit on the destination writes to address 5. -/
theorem test_input : (after (given (at0 [103, 5, 99, 0, 0, 0]) [9])).map (fun t => (t.mem.read 5, t.inRd, t.ip)) =
    some (9, 1, 2) := by decide
/-- V-I3 and V-I4: blocking, and the fault that comes before it. -/
theorem test_input_blocks :
    (after (at0 [3, 5, 99, 0, 0, 0])).map (fun t => (t.status, t.ip, t.mem.read 5)) = some (.waitingForInput, 0, 0) ∧
      (after (at0 [3, -1, 99])).map (fun t => (t.status, t.fault.map fun p => faultCode p.1)) = some (.running, some 3) := by
  decide
/-- Scenario 3. -/
theorem test_output : (after (at0 [104, 1125899906842624, 99])).map (fun t => (t.outQ, t.ip)) =
    some ([1125899906842624], 2) := by decide
/-- V-O5: a never-written address reads 0. -/
theorem test_output_extension : (after (at0 [4, 1000, 99])).map (fun t => t.outQ) = some [0] := by decide
/-- V-J1 and V-J2. -/
theorem test_jumpIfTrue :
    (after (at0 [1105, 1, 4, 99, 104, 5, 99])).map (fun t => t.ip) = some 4 ∧
      (after (at0 [1105, 0, 4, 99, 104, 5, 99])).map (fun t => t.ip) = some 3 := by decide
/-- V-J3, V-J4 and V-J5: when a negative target faults. -/
theorem test_jumpIfTrue_negative :
    [[1105, 1, -3, 99], [1105, 0, -3, 99], [105, 0, -1, 99]].map (fun p =>
      (after (at0 p)).map (fun t => (t.ip, t.fault.isSome))) = [some (0, true), some (3, false), some (0, true)] := by decide
/-- R186's examples and V-J11. -/
theorem test_jumpIfFalse :
    [[1106, 0, 7], [1106, 5, 7], [1106, -1, 7]].map (fun p => (after (at0 p)).map (fun t => t.ip)) =
      [some 7, some 3, some 3] := by decide
/-- V-H1. -/
theorem test_halt : (after (at0 [99])).map (fun t => (t.status, t.ip)) = some (.halted, 0) := by decide
/-- V-J12's second step and the empty image: 0 is UnknownOpcode. -/
theorem test_unknownOpcode : (after State.reset).map (fun t => (t.status, t.ip, t.fault)) =
    some (.running, 0, some (.unknownOpcode 0, 0)) := by decide
/-- V-A15: operand 1 is checked first. -/
theorem test_fault_order : (after (at0 [1, -1, -2, 0, 99])).map (fun t => t.fault) =
    some (some (.negativeAddress (-1), 0)) := by decide
/-- V-H3: a run of a Halted instance. -/
theorem test_executeAfterHalt : (after { at0 [99] with status := .halted }).map (fun t => t.fault) =
    some (some (.executeAfterHalt, 0)) := by decide
/-- V-K4's observers after two Outputs: peek 2, take 1, take 2, take none. -/
theorem test_observers :
    (peekLastOutput { at0 [] with outQ := [1, 2] }, (takeOutput { at0 [] with outQ := [1, 2] }).2,
      (takeOutput { at0 [] with outQ := [1, 2], outRd := 1 }).2, (takeOutput { at0 [] with outQ := [1, 2], outRd := 2 }).2) =
    (some 2, some 1, some 2, none) := by decide
/-- V-K3: submit_input on a Halted instance keeps Halted. -/
theorem test_submit_halted :
    (match submitInput 5 { at0 [99] with status := .halted } with
      | .next t => some (t.status, t.inQ)
      | _ => none) = some (.halted, [5]) := by decide
/-- R139: mem_peek answers 0 at or above ADDR_LIMIT. -/
theorem test_memPeek_limit : memPeek (below 1 [7, 8]) 0 = 7 ∧ memPeek (below 1 [7, 8]) 1 = 0 := by decide
/-- The canonical form after a write of 0, and of a word that is there already. -/
theorem test_memory_canonical :
    ((Memory.ofImage 0 (words [1, 0, 3])).write 2 0 = [(0, 1)]) ∧
      ((Memory.ofImage 0 (words [1, 0, 3])).write 1 5 = [(0, 1), (1, 5), (2, 3)]) := by decide

/-! ### Witnesses: the hypotheses of each statement met together -/

/-- A running Add of two Position words 10 and 20 into address 7 (V-A7). -/
def addState : State := at0 [1, 5, 6, 7, 99, 10, 20, 0]

/-- A 1101 / 1102 word with operands `a`, `b` into address 5 (95_test_vectors.md section 2.2). -/
def arith (op a b : Int) : State := at0 [op, a, b, 5, 99, 0]

theorem witness_DecodeAgreesWithEncode :
    (Instr.add .immediate .position .position).wellFormed = true ∧
      decode 201 = .ok (.add .immediate .position .position) ∧
      canonical (.add .immediate .position .position) = .add .immediate .position .position := ⟨rfl, rfl, rfl⟩
theorem witness_OpcodeSelectsInstruction_negative : (-1 : Word).toInt < 0 ∧ (BitVec.intMin 64).toInt < 0 := by decide
theorem witness_OpcodeSelectsInstruction_known :
    ([1, 8, 99, 199, 2 ^ 63 - 1] : List Int).all (fun n => let w := BitVec.ofInt 64 n
      decide (0 ≤ w.toInt) && decide (w.toNat % 100 ∈ knownOpcodes)) = true := by decide
theorem witness_OpcodeSelectsInstruction_unknown :
    ([0, 9, 98, 100] : List Int).all (fun n => let w := BitVec.ofInt 64 n
      decide (0 ≤ w.toInt) && decide (w.toNat % 100 ∉ knownOpcodes)) = true := by decide
theorem witness_ModeDigitsSelectModes :
    ([1, 99901, 204, 2 ^ 63 - 1] : List Int).all (fun n => let w := BitVec.ofInt 64 n
      decide (0 ≤ w.toInt) && decide (w.toNat % 100 ∈ knownOpcodes)) = true := by decide
theorem witness_HigherDigitsAreIgnored :
    0 ≤ (1000001 : Word).toInt ∧ 0 ≤ (1 : Word).toInt ∧ (1000001 : Word).toNat % 100000 = (1 : Word).toNat % 100000 := by
  decide
theorem witness_DestinationModeIsNotConsulted :
    addrOk addState (addState.ip + 3) = true ∧ 0 ≤ (operandAt addState 3).toInt := by decide
theorem witness_AssembledStatementsDecode :
    assembleStatement [] (.jmp ⟨.immediate, .num 6⟩) = some [1105, 1, 6] := by decide
theorem witness_AssembledStatementsDecode_label :
    (∀ l ∈ [(⟨none, .hlt⟩ : AsmLine)], l.label ≠ some "x") ∧
      assemble ([⟨none, .hlt⟩] ++ ⟨some "x", .out ⟨.position, .label "x"⟩⟩ :: [⟨some "y", .hlt⟩]) = some [99, 4, 1, 99] := by
  decide
theorem witness_StepRunsTheDecodedInstruction :
    addState.fault = none ∧ addrOk addState addState.ip = true ∧
      decode (addState.mem.read addState.ip) = .ok (.add .position .position .position) ∧ addState.status = .running :=
  ⟨rfl, rfl, rfl, rfl⟩

/-- An instance that waits at the Input of `[3,5,...]`. -/
def waiting : State := { at0 [3, 5, 99, 0, 0, 0] with status := .waitingForInput }

theorem witness_StepRunsTheDecodedInstruction_waiting :
    waiting.fault = none ∧ addrOk waiting waiting.ip = true ∧
      decode (waiting.mem.read waiting.ip) = .ok (.input .position .position .position) ∧
      waiting.status = .waitingForInput := ⟨rfl, rfl, rfl, rfl⟩
theorem witness_FetchFaultsAreRecorded_limit :
    (below 0 [99]).fault = none ∧ (below 0 [99]).status = .running ∧ addrOk (below 0 [99]) (below 0 [99]).ip = false :=
  ⟨rfl, rfl, rfl⟩
theorem witness_FetchFaultsAreRecorded_word :
    addrOk (at0 [-1]) 0 = true ∧ decode ((at0 [-1]).mem.read 0) = .error (.unknownOpcode (-1)) := ⟨rfl, rfl⟩
theorem witness_ExecutionAfterHaltRaises :
    { at0 [99] with status := Status.halted }.fault = none ∧ { at0 [99] with status := Status.halted }.status = .halted :=
  ⟨rfl, rfl⟩
theorem witness_FaultedInstanceIsStopped :
    { at0 [99] with fault := some (FaultKind.executeAfterHalt, 0) }.fault = some (.executeAfterHalt, 0) := rfl
theorem witness_FaultsArePrecise : ∃ t, step State.reset = .next t ∧ t.fault ≠ none := ⟨_, rfl, by decide⟩
theorem witness_FaultsArePrecise_waiting :
    ∃ t, step { at0 [0] with status := .waitingForInput } = .next t ∧ t.fault ≠ none := ⟨_, rfl, by decide⟩

theorem witness_InstructionPointerAdvances_three :
    Instr.add .position .position .position ∈ threeOperandInstrs .position .position .position ∧
      ∃ t, exec (.add .position .position .position) addState = .next t ∧ addState.fault = none ∧ t.fault = none :=
  ⟨by decide, _, rfl, rfl, rfl⟩
theorem witness_InstructionPointerAdvances_input :
    ∃ t, exec (.input .position .position .position) (given (at0 [3, 5]) [9]) = .next t ∧ t.fault = none ∧
      (given (at0 [3, 5]) [9]).inRd < (given (at0 [3, 5]) [9]).inQ.length := ⟨_, rfl, rfl, by decide⟩
theorem witness_InstructionPointerAdvances_blocked :
    ∃ t, exec (.input .position .position .position) (at0 [3, 5]) = .next t ∧ t.fault = none ∧
      (at0 [3, 5]).inRd = (at0 [3, 5]).inQ.length := ⟨_, rfl, rfl, rfl⟩
theorem witness_InstructionPointerAdvances_output :
    ∃ t, exec (.output .immediate .position .position) (at0 [104, 7]) = .next t ∧ t.fault = none := ⟨_, rfl, rfl⟩
theorem witness_InstructionPointerAdvances_jump :
    SourceReads (at0 [1105, 1, 4]) .immediate 1 1 ∧ SourceReads (at0 [1105, 1, 4]) .immediate 2 4 ∧
      (∃ t, exec (.jumpIfTrue .immediate .immediate .position) (at0 [1105, 1, 4]) = .next t ∧ t.fault = none) ∧
      (∃ t, exec (.jumpIfFalse .immediate .immediate .position) (at0 [1105, 1, 4]) = .next t ∧ t.fault = none) := by
  refine ⟨by unfold SourceReads; decide, by unfold SourceReads; decide, ⟨_, rfl, rfl⟩, ⟨_, rfl, rfl⟩⟩
theorem witness_InstructionPointerAdvances_halt :
    ∃ t, exec (.halt .position .position .position) (at0 [99]) = .next t ∧ t.fault = none := ⟨_, rfl, rfl⟩

theorem witness_AddWritesTheSum :
    SourceReads addState .position 1 10 ∧ SourceReads addState .position 2 20 ∧ DestReads addState 3 7 ∧
      addrOk addState 7 = true ∧ -2 ^ 63 ≤ (10 : Word).toInt + (20 : Word).toInt ∧
      (10 : Word).toInt + (20 : Word).toInt ≤ 2 ^ 63 - 1 := by
  unfold SourceReads DestReads; decide
/-- V-A6 with both operands at the ends of the range. -/
theorem witness_AddWritesTheSum_boundary :
    SourceReads (arith 1101 (-2 ^ 63) (2 ^ 63 - 1)) .immediate 1 (BitVec.intMin 64) ∧
      SourceReads (arith 1101 (-2 ^ 63) (2 ^ 63 - 1)) .immediate 2 (BitVec.intMax 64) ∧
      DestReads (arith 1101 (-2 ^ 63) (2 ^ 63 - 1)) 3 5 ∧
      -2 ^ 63 ≤ (BitVec.intMin 64).toInt + (BitVec.intMax 64).toInt := by
  unfold SourceReads DestReads; decide
/-- V-X9. -/
theorem witness_MultiplyWritesTheProduct :
    SourceReads (arith 1102 (-2 ^ 62) 2) .immediate 1 (BitVec.ofInt 64 (-2 ^ 62)) ∧
      SourceReads (arith 1102 (-2 ^ 62) 2) .immediate 2 2 ∧ DestReads (arith 1102 (-2 ^ 62) 2) 3 5 ∧
      addrOk (arith 1102 (-2 ^ 62) 2) 5 = true ∧
      -2 ^ 63 ≤ (BitVec.ofInt 64 (-2 ^ 62)).toInt * (2 : Word).toInt ∧
      (BitVec.ofInt 64 (-2 ^ 62)).toInt * (2 : Word).toInt ≤ 2 ^ 63 - 1 := by
  unfold SourceReads DestReads; decide
/-- V-A4 under the default policy. -/
theorem witness_OverflowFollowsThePolicy_fault :
    SourceReads (arith 1101 (2 ^ 63 - 1) 1) .immediate 1 (BitVec.intMax 64) ∧
      SourceReads (arith 1101 (2 ^ 63 - 1) 1) .immediate 2 1 ∧ DestReads (arith 1101 (2 ^ 63 - 1) 1) 3 5 ∧
      2 ^ 63 - 1 < (BitVec.intMax 64).toInt + (1 : Word).toInt ∧
      (arith 1101 (2 ^ 63 - 1) 1).cfg.overflowPolicy = .fault := by
  unfold SourceReads DestReads; decide
/-- V-A5 and V-X6 under Wrap. -/
theorem witness_OverflowFollowsThePolicy_wrap :
    SourceReads (wrapping [1102, -2 ^ 63, -1, 5]) .immediate 1 (BitVec.intMin 64) ∧
      SourceReads (wrapping [1102, -2 ^ 63, -1, 5]) .immediate 2 (-1) ∧ DestReads (wrapping [1102, -2 ^ 63, -1, 5]) 3 5 ∧
      2 ^ 63 - 1 < (BitVec.intMin 64).toInt * (-1 : Word).toInt ∧
      (BitVec.intMin 64).toInt + (-1 : Word).toInt < -2 ^ 63 ∧
      (wrapping [1102, -2 ^ 63, -1, 5]).cfg.overflowPolicy = .wrap ∧ addrOk (wrapping [1102, -2 ^ 63, -1, 5]) 5 = true := by
  unfold SourceReads DestReads; decide
theorem witness_ComparisonsWriteOneOrZero :
    SourceReads (arith 1107 4 4) .immediate 1 4 ∧ SourceReads (arith 1107 4 4) .immediate 2 4 ∧
      DestReads (arith 1107 4 4) 3 5 ∧ addrOk (arith 1107 4 4) 5 = true := by
  unfold SourceReads DestReads; decide

theorem witness_ThreeOperandFaultsComeInOrder_first :
    SourceFaults (at0 [1, -1, -2, 0]) .position 1 (.negativeAddress (-1)) ∧
      SourceFaults (below 1 [1101, 1, 1, 5]) .immediate 1 (.addressLimit 1) ∧
      SourceFaults (below 4 [1, 4, 0, 0]) .position 1 (.addressLimit 4) := by
  unfold SourceFaults; decide
theorem witness_ThreeOperandFaultsComeInOrder_second :
    SourceReads (at0 [101, 1, -2, -3]) .immediate 1 1 ∧
      SourceFaults (at0 [101, 1, -2, -3]) .position 2 (.negativeAddress (-2)) := by
  unfold SourceReads SourceFaults; decide
theorem witness_ThreeOperandFaultsComeInOrder_third :
    SourceReads (at0 [1101, 1, 2, -5]) .immediate 1 1 ∧ SourceReads (at0 [1101, 1, 2, -5]) .immediate 2 2 ∧
      DestFaults (at0 [1101, 1, 2, -5]) 3 (.negativeAddress (-5)) ∧
      DestFaults (below 3 [1101, 1, 2, 0]) 3 (.addressLimit 3) := by
  unfold SourceReads DestFaults; decide
theorem witness_WritesAtTheLimitFault :
    SourceReads (below 4 [1101, 1, 2, 4]) .immediate 1 1 ∧ SourceReads (below 4 [1101, 1, 2, 4]) .immediate 2 2 ∧
      DestReads (below 4 [1101, 1, 2, 4]) 3 4 ∧ addrOk (below 4 [1101, 1, 2, 4]) 4 = false ∧
      -2 ^ 63 ≤ (1 : Word).toInt + (2 : Word).toInt ∧ (1 : Word).toInt * (2 : Word).toInt ≤ 2 ^ 63 - 1 := by
  unfold SourceReads DestReads; decide
theorem witness_ThreeOperandFrame :
    (∃ t, exec (.equals .position .position .position) addState = .next t) ∧
      (match dst addState 3 with | .ok d => d == 7 | .error _ => false) = true ∧
      (match dst (at0 [1101, 1, 1, -5]) 3 with | .ok _ => false | .error f => f == .negativeAddress (-5)) = true :=
  ⟨⟨_, rfl⟩, by decide, by decide⟩

theorem witness_InputWritesTheOldestEntry :
    DestReads (given (at0 [3, 5]) [9, 8]) 1 5 ∧ addrOk (given (at0 [3, 5]) [9, 8]) 5 = true ∧
      (given (at0 [3, 5]) [9, 8]).inQ[(given (at0 [3, 5]) [9, 8]).inRd]? = some 9 := by
  unfold DestReads; decide
theorem witness_InputBlocksOnAnEmptyQueue :
    DestReads (at0 [3, 5]) 1 5 ∧ (at0 [3, 5]).inRd = (at0 [3, 5]).inQ.length := by
  unfold DestReads; decide
theorem witness_InputFaultsBeforeItBlocks :
    DestFaults (at0 [3, -1]) 1 (.negativeAddress (-1)) ∧ DestReads (given (below 2 [3, 2]) [9]) 1 2 ∧
      (given (below 2 [3, 2]) [9]).inQ[(given (below 2 [3, 2]) [9]).inRd]? = some 9 ∧
      addrOk (given (below 2 [3, 2]) [9]) 2 = false := by
  unfold DestReads DestFaults; decide
theorem witness_InputFrame :
    ∃ t, exec (.input .immediate .position .position) (given (at0 [103, 5]) [9]) = .next t := ⟨_, rfl⟩
theorem witness_OutputAppendsTheValue :
    SourceReads (queued 1 [104, 7]) .immediate 1 7 ∧ (queued 1 [104, 7]).cfg.queueLimit = some 1 ∧
      (queued 1 [104, 7]).outQ.length - (queued 1 [104, 7]).outRd < 1 := by
  unfold SourceReads; decide
theorem witness_OutputFaultsComeInOrder :
    SourceFaults (queued 0 [4, -1]) .position 1 (.negativeAddress (-1)) ∧ SourceReads (queued 0 [104, 7]) .immediate 1 7 ∧
      (queued 0 [104, 7]).cfg.queueLimit = some 0 ∧
      0 ≤ (queued 0 [104, 7]).outQ.length - (queued 0 [104, 7]).outRd := by
  unfold SourceReads SourceFaults; decide

theorem witness_JumpIfTrueCompletes_taken :
    SourceReads (at0 [1105, -2 ^ 63, 0]) .immediate 1 (BitVec.intMin 64) ∧ SourceReads (at0 [1105, -2 ^ 63, 0]) .immediate 2 0 ∧
      (BitVec.intMin 64).toInt ≠ 0 ∧ 0 ≤ (0 : Word).toInt := by
  unfold SourceReads; decide
theorem witness_JumpIfTrueCompletes_notTaken :
    SourceReads (at0 [1105, 0, -3]) .immediate 1 0 ∧ SourceReads (at0 [1105, 0, -3]) .immediate 2 (-3) ∧ (0 : Word).toInt = 0 := by
  unfold SourceReads; decide
theorem witness_JumpIfFalseCompletes_taken :
    SourceReads (at0 [1106, 0, 7]) .immediate 1 0 ∧ SourceReads (at0 [1106, 0, 7]) .immediate 2 7 ∧
      (0 : Word).toInt = 0 ∧ 0 ≤ (7 : Word).toInt := by
  unfold SourceReads; decide
theorem witness_JumpIfFalseCompletes_notTaken :
    SourceReads (at0 [1106, -1, -7]) .immediate 1 (-1) ∧ SourceReads (at0 [1106, -1, -7]) .immediate 2 (-7) ∧
      (-1 : Word).toInt ≠ 0 := by
  unfold SourceReads; decide
theorem witness_JumpFaultsComeInOrder_operands :
    SourceFaults (at0 [5, -1, -1]) .position 1 (.negativeAddress (-1)) ∧ SourceReads (at0 [105, 0, -1]) .immediate 1 0 ∧
      SourceFaults (at0 [105, 0, -1]) .position 2 (.negativeAddress (-1)) := by
  unfold SourceReads SourceFaults; decide
theorem witness_JumpFaultsComeInOrder_target :
    SourceReads (at0 [1105, 1, -1]) .immediate 1 1 ∧ SourceReads (at0 [1105, 1, -1]) .immediate 2 (-1) ∧ (-1 : Word).toInt < 0 ∧
      (1 : Word).toInt ≠ 0 ∧ SourceReads (at0 [1106, 0, -1]) .immediate 1 0 ∧
      SourceReads (at0 [1106, 0, -1]) .immediate 2 (-1) := by
  unfold SourceReads; decide
theorem witness_HaltCompletes :
    ([99, 1099, 11199, 100099] : List Int).all (fun n => let w := BitVec.ofInt 64 n
      decide (0 ≤ w.toInt) && decide (w.toNat % 100 = 99)) = true ∧ (at0 [99]).fault = none := by decide
theorem witness_NonStoringFrame :
    (∃ t, exec (.output .position .position .position) (at0 [4, 3, 99, 77]) = .next t) ∧
      (∃ t, exec (.jumpIfTrue .immediate .immediate .position) (at0 [1105, 1, 4]) = .next t) ∧
      (∃ t, exec (.jumpIfFalse .immediate .immediate .position) (at0 [1106, 1, 4]) = .next t) ∧
      ∃ t, exec (.halt .position .position .position) (at0 [99]) = .next t := ⟨⟨_, rfl⟩, ⟨_, rfl⟩, ⟨_, rfl⟩, ⟨_, rfl⟩⟩

theorem witness_WriteThenRead : addrOk (below 4 []) 3 = true ∧ addrOk (below 4 []) 4 = false := by decide
theorem witness_EqualReadsAreEqualMemories :
    Memory.wf ((Memory.ofImage 0 (words [1, 2])).write 1 0) = true ∧ Memory.wf (Memory.ofImage 0 (words [1])) = true ∧
      ∀ a, ((Memory.ofImage 0 (words [1, 2])).write 1 0).read a = (Memory.ofImage 0 (words [1])).read a := by
  have h : (Memory.ofImage 0 (words [1, 2])).write 1 0 = Memory.ofImage 0 (words [1]) := by decide
  exact ⟨by decide, by decide, fun a => by rw [h]⟩
theorem witness_SuspensionOnlyAtInput_suspends :
    (at0 [3, 5]).fault = none ∧ (at0 [3, 5]).status = .running ∧ addrOk (at0 [3, 5]) (at0 [3, 5]).ip = true ∧
      decode ((at0 [3, 5]).mem.read (at0 [3, 5]).ip) = .ok (.input .position .position .position) ∧
      DestReads (at0 [3, 5]) 1 5 ∧ (at0 [3, 5]).inRd = (at0 [3, 5]).inQ.length :=
  ⟨rfl, rfl, rfl, rfl, by unfold DestReads; decide, rfl⟩
theorem witness_SuspensionOnlyAtInput_onlyThere :
    ∃ t u, step (at0 [3, 5]) = .next t ∧ (at0 [3, 5]).status ≠ .waitingForInput ∧ t.status = .waitingForInput ∧
      submitInput 123 t = .next u := ⟨_, _, rfl, by decide, rfl, rfl⟩
theorem witness_HaltedIsTerminal :
    ∃ t r, { at0 [99] with status := Status.halted }.status = .halted ∧
      hostCommand 0 (.submitInput 5) { at0 [99] with status := .halted } = some (.next (t, r)) := ⟨_, _, rfl, rfl⟩
theorem witness_HaltedIsTerminal_run :
    (∃ t, step { at0 [99] with status := .halted } = .next t) ∧
      ∃ t r, hostCommand 0 .run { at0 [99] with status := .halted } = some (.next (t, r)) := ⟨⟨_, rfl⟩, _, _, rfl⟩
theorem witness_HaltedOnlyByHalt :
    ∃ t, step (at0 [99]) = .next t ∧ (at0 [99]).status ≠ .halted ∧ t.status = .halted := ⟨_, rfl, by decide, rfl⟩
theorem witness_UnreadOutputCount_step :
    ∃ t, step (at0 [104, 7]) = .next t ∧ unreadOutput (at0 [104, 7]) < unreadOutput t := ⟨_, rfl, by decide⟩
theorem witness_UnreadOutputCount_take :
    ∃ t r, hostCommand 0 .takeOutput { at0 [] with outQ := [7] } = some (.next (t, r)) ∧
      unreadOutput t < unreadOutput { at0 [] with outQ := [7] } := ⟨_, _, rfl, by decide⟩
theorem witness_UnreadOutputCount_run :
    ∃ t r, hostCommand 2 .run (at0 [104, 7, 99]) = some (.next (t, r)) ∧ unreadOutput (at0 [104, 7, 99]) < unreadOutput t :=
  ⟨_, _, rfl, by decide⟩
theorem witness_InputIsConsumedInOrder :
    (∃ t, step (given (at0 [3, 5]) [9, 8]) = .next t) ∧ ∃ t, submitInput 9 (at0 [3, 5]) = .next t := ⟨⟨_, rfl⟩, _, rfl⟩
theorem witness_OutputIsDeliveredInOrder :
    { at0 [] with outQ := [1, 2, 3], outRd := 1 }.outRd ≤ { at0 [] with outQ := [1, 2, 3], outRd := 1 }.outQ.length := by decide
theorem witness_ConsumedInputIsHidden :
    ∃ t, { given (at0 [3, 5]) [9, 8] with inRd := 1 }.inRd ≤ { given (at0 [3, 5]) [9, 8] with inRd := 1 }.inQ.length ∧
      ([7] : List Word).length = { given (at0 [3, 5]) [9, 8] with inRd := 1 }.inRd ∧
      step { given (at0 [3, 5]) [9, 8] with inRd := 1 } = .next t := ⟨_, by decide, rfl, rfl⟩
theorem witness_ConsumedInputIsHiddenFromCommands :
    ∃ t r, { given (at0 [3, 5, 99]) [9, 8] with inRd := 1 }.inRd ≤ { given (at0 [3, 5, 99]) [9, 8] with inRd := 1 }.inQ.length ∧
      ([7] : List Word).length = { given (at0 [3, 5, 99]) [9, 8] with inRd := 1 }.inRd ∧
      hostCommand 2 .run { given (at0 [3, 5, 99]) [9, 8] with inRd := 1 } = some (.next (t, r)) ∧
      hostCommand 1 .run { given (at0 [3, 5, 99]) [9, 8] with inRd := 1 } = none := ⟨_, _, by decide, rfl, rfl, rfl⟩
theorem witness_ConsumedInputIsHiddenFromCommands_refused :
    { given (queued 1 []) [9, 8] with inRd := 1 }.inRd ≤ { given (queued 1 []) [9, 8] with inRd := 1 }.inQ.length ∧
      ([7] : List Word).length = { given (queued 1 []) [9, 8] with inRd := 1 }.inRd ∧
      hostCommand 0 (.submitInput 5) { given (queued 1 []) [9, 8] with inRd := 1 } = some (.refused .inputQueueFull) :=
  ⟨by decide, rfl, rfl⟩
theorem witness_ConsumedOutputIsHidden :
    ∃ t r, { at0 [104, 7] with outQ := [1, 2], outRd := 1 }.outRd ≤ { at0 [104, 7] with outQ := [1, 2], outRd := 1 }.outQ.length ∧
      ([7] : List Word).length = { at0 [104, 7] with outQ := [1, 2], outRd := 1 }.outRd ∧
      step { at0 [104, 7] with outQ := [1, 2], outRd := 1 } = .next t ∧
      hostCommand 0 .peekLastOutput { at0 [104, 7] with outQ := [1, 2], outRd := 1 } = some (.next r) :=
  ⟨_, _, by decide, rfl, rfl, rfl⟩
theorem witness_ConsumedOutputIsHidden_lastKept :
    ∃ r, ([7, 2] : List Word).length = { at0 [] with outQ := [1, 2], outRd := 2 }.outRd ∧
      ([7, 2] : List Word).getLast? = (List.take 2 [1, 2]).getLast? ∧
      hostCommand 0 .peekLastOutput { at0 [] with outQ := [1, 2], outRd := 2 } = some (.next r) := ⟨_, rfl, rfl, rfl⟩
theorem witness_ParametersNeverChange :
    (∃ t, step addState = .next t) ∧ ∃ t r, hostCommand 2 .run (at0 [104, 7, 99]) = some (.next (t, r)) :=
  ⟨⟨_, rfl⟩, _, _, rfl⟩
theorem witness_SubmitInputAppends :
    (queued 1 []).fault = none ∧ (queued 1 []).inQ.length - (queued 1 []).inRd < 1 ∧
      1 ≤ (given (queued 1 []) [5]).inQ.length - (given (queued 1 []) [5]).inRd := by decide
theorem witness_ObserversAnswer :
    (at0 []).fault = none ∧ (at0 []).outQ = [] ∧ { at0 [] with outQ := [1, 2] }.outQ = [1] ++ [2] := ⟨rfl, rfl, rfl⟩
theorem witness_ObserversAnswer_unblocked :
    ∃ t, waiting.fault = none ∧ waiting.status = .waitingForInput ∧ submitInput 5 waiting = .next t := ⟨_, rfl, rfl, rfl⟩
theorem witness_TakeOutputTakesTheOldest :
    { at0 [] with outQ := [1] }.outRd < { at0 [] with outQ := [1] }.outQ.length ∧
      { at0 [] with outQ := [1], outRd := 1 }.outQ.length ≤ { at0 [] with outQ := [1], outRd := 1 }.outRd := by decide
theorem witness_MemPeekReadsMemory :
    (below 1 [7]).fault = none ∧ addrOk (below 1 [7]) 0 = true ∧ addrOk (below 1 [7]) 1 = false := by decide
theorem witness_RunIsDeterministic : ∃ t, RunReturns (at0 [99]) t := ⟨_, 1, rfl⟩
theorem witness_RunEndsInOneOfThreeWays :
    (∃ t, RunReturns (at0 [99]) t ∧ t.status = .halted) ∧ (∃ t, RunReturns (at0 [3, 5]) t ∧ t.status = .waitingForInput) ∧
      ∃ t, RunReturns (at0 [0]) t ∧ t.fault ≠ none := ⟨⟨_, ⟨1, rfl⟩, rfl⟩, ⟨_, ⟨1, rfl⟩, rfl⟩, _, ⟨1, rfl⟩, by decide⟩
theorem witness_LoopIsAFiniteStepSequence : ∃ t, runLoop 2 (at0 [104, 7, 99]) = some (.next t) := ⟨_, rfl⟩
theorem witness_Coherent_waiting : Coherent waiting ∧ waiting.fault = none ∧ waiting.status = .waitingForInput :=
  ⟨⟨by decide, by decide, by decide, by decide, by decide, by decide, by decide⟩, rfl, rfl⟩
theorem witness_StepKeepsCoherent : Coherent addState ∧ ∃ t, step addState = .next t :=
  ⟨⟨by decide, by decide, by decide, by decide, by decide, by decide, by decide⟩, _, rfl⟩
theorem witness_CommandsKeepCoherent :
    Coherent waiting ∧ ∃ t r, hostCommand 0 (.submitInput 5) waiting = some (.next (t, r)) :=
  ⟨witness_Coherent_waiting.1, _, _, rfl⟩
theorem witness_ReachableStatesAreCoherent : Reachable addState := Reachable.construct Config.standard _
theorem witness_InstancesShareNoState :
    ∃ net r, networkCommand 0 1 (.submitInput 5) [at0 [99], at0 [3, 5]] = some (.next (net, r)) := ⟨_, _, rfl⟩

end Sys2Proof.Tests
end

section
/-! SUPPORT. What one instruction, one step, one run and one take_output can do, each said once; every proof below goes through
these lemmas. -/

namespace Sys2Proof.Machine

/-! ### One instruction -/

/-- The pseudocode of an instruction before its end is settled: its final state, or the fault it raises. -/
def effectOf : Instr → State → Except FaultKind State
  | .add m1 m2 _, s => threeOperand addResult m1 m2 s
  | .multiply m1 m2 _, s => threeOperand mulResult m1 m2 s
  | .input _ _ _, s => inputEffect s
  | .output m1 _ _, s => outputEffect m1 s
  | .jumpIfTrue m1 m2 _, s => jumpWhen wordIsTrue m1 m2 s
  | .jumpIfFalse m1 m2 _, s => jumpWhen (fun c => !wordIsTrue c) m1 m2 s
  | .lessThan m1 m2 _, s => threeOperand ltResult m1 m2 s
  | .equals m1 m2 _, s => threeOperand eqResult m1 m2 s
  | .halt _ _ _, s => .ok (s.withStatus .halted)

/-- Every arm of the dispatch settles its instruction's effect (40_engine.md R120, R121). -/
theorem exec_eq_settle (i : Instr) (s : State) : exec i s = settle s (effectOf i s) := by
  cases i <;> rfl

/-- What executing an instruction can answer: its effect, or its fault taken on the state it began with. -/
theorem exec_next {i : Instr} {s t : State} (h : exec i s = .next t) :
    effectOf i s = .ok t ∨ ∃ k, effectOf i s = .error k ∧ t = raise k s :=
  settle_next s t _ (exec_eq_settle i s ▸ h)

/-- A next state without a fault record is the instruction's own final state. -/
theorem effectOf_of_exec {i : Instr} {s t : State} (ht : t.fault = none) (h : exec i s = .next t) :
    effectOf i s = .ok t := by
  obtain hok | ⟨k, -, rfl⟩ := exec_next h
  · exact hok
  · simp at ht

/-- The four instructions with a third operand differ only in what they compute (41_arithmetic.md, opening). -/
theorem effectOf_threeOperandInstrs {m1 m2 m3 : Mode} {i : Instr} (hi : i ∈ threeOperandInstrs m1 m2 m3) :
    operandCount i = 3 ∧ ∃ g, ∀ s, effectOf i s = threeOperand g m1 m2 s := by
  simp only [threeOperandInstrs, List.mem_cons, List.not_mem_nil, or_false] at hi
  obtain rfl | rfl | rfl | rfl := hi <;> exact ⟨rfl, _, fun _ => rfl⟩

theorem wordIsTrue_eq_false_iff (c : Word) : wordIsTrue c = false ↔ c.toInt = 0 := by
  simp [← Bool.not_eq_true, wordIsTrue_iff]

/-- A source operand reads one value. -/
theorem SourceReads.unique {s : State} {m : Mode} {k : Nat} {v w : Word} (hv : SourceReads s m k v)
    (hw : SourceReads s m k w) : v = w :=
  Except.ok.inj (((src_ok_iff s m k v).mpr hv).symm.trans ((src_ok_iff s m k w).mpr hw))

/-! ### The engine -/

/-- Setting the status to Running where it is Running already changes nothing. -/
theorem State.withStatus_running {s : State} (h : s.status = .running) : s.withStatus .running = s := by
  cases s; cases h; rfl

/-- A step that answers a next state raises ExecuteAfterHalt or is the engine's step with the status Running (40_engine.md R120,
R132, R133). -/
theorem step_next_running {s t : State} (h : step s = .next t) :
    t = raise .executeAfterHalt s ∨ engineStep (s.withStatus .running) = .next t := by
  obtain ⟨-, ⟨hrun, hstep⟩ | ⟨-, hstep⟩ | ⟨-, rfl⟩⟩ := step_next s t h
  · exact .inr (by rwa [State.withStatus_running hrun])
  · exact .inr hstep
  · exact .inl rfl

/-- What every step of the engine keeps, the run loop keeps for any fuel (40_engine.md R132). -/
theorem runLoop_preserves {P : State → Prop} (hP : ∀ u v, P u → engineStep u = .next v → P v) {n : Nat} {s t : State}
    (hs : P s) (h : runLoop n s = some (.next t)) : P t := by
  induction n generalizing s with
  | zero => simp [runLoop] at h
  | succ n ih =>
    cases hstep : engineStep s with
    | next u =>
      have hu : P u := hP s u hs hstep
      cases hc : runContinues u with
      | true => exact ih hu (by simpa [runLoop, hstep, hc] using h)
      | false =>
        obtain rfl : u = t := by simpa [runLoop, hstep, hc] using h
        exact hu
    | fault f => simp [runLoop, hstep] at h
    | refused r => simp [runLoop, hstep] at h

/-- A run that returns raises ExecuteAfterHalt or is the run loop with the status Running (40_engine.md R132). -/
theorem runCommand_next {n : Nat} {s t : State} (h : runCommand n s = some (.next t)) :
    t = raise .executeAfterHalt s ∨ runLoop n (s.withStatus .running) = some (.next t) := by
  unfold runCommand at h
  split at h
  · simp at h
  · split at h
    · next => exact .inl (by simpa using h.symm)
    · next hrun => exact .inr (by rwa [State.withStatus_running hrun])
    · next => exact .inr h

/-! ### The output queue -/

/-- The output queue and its cursor stay. -/
def KeepsOutput (s t : State) : Prop := t.outQ = s.outQ ∧ t.outRd = s.outRd

/-- One entry is appended to the output queue and the cursor stays (10_state.md R42). -/
def Emits (s t : State) : Prop := (∃ v, t.outQ = s.outQ ++ [v]) ∧ t.outRd = s.outRd

theorem KeepsOutput.unreadOutput_eq {s t : State} (h : KeepsOutput s t) : unreadOutput t = unreadOutput s := by
  simp [unreadOutput, h.1, h.2]

theorem Emits.unreadOutput_le {s t : State} (h : Emits s t) : unreadOutput s ≤ unreadOutput t := by
  obtain ⟨⟨v, hq⟩, hrd⟩ := h
  simp only [unreadOutput, hq, hrd, List.length_append]
  omega

theorem keepsOutput_of_threeOperand {g : Config → Word → Word → Except FaultKind Word} {m1 m2 : Mode} {s t : State}
    (h : threeOperand g m1 m2 s = .ok t) : KeepsOutput s t := by
  obtain ⟨-, -, d, r, -, -, -, -, -, rfl⟩ := (threeOperand_ok_iff g m1 m2 s t).mp h
  exact ⟨rfl, rfl⟩

theorem keepsOutput_of_inputEffect {s t : State} (h : inputEffect s = .ok t) : KeepsOutput s t := by
  obtain ⟨d, -, ⟨-, rfl⟩ | ⟨v, -, -, rfl⟩⟩ := (inputEffect_ok_iff s t).mp h <;> exact ⟨rfl, rfl⟩

theorem keepsOutput_of_jumpWhen {g : Word → Bool} {m1 m2 : Mode} {s t : State} (h : jumpWhen g m1 m2 s = .ok t) :
    KeepsOutput s t := by
  obtain ⟨-, -, -, -, ⟨-, a, -, rfl⟩ | ⟨-, rfl⟩⟩ := (jumpWhen_ok_iff g m1 m2 s t).mp h <;> exact ⟨rfl, rfl⟩

theorem emits_of_outputEffect {m1 : Mode} {s t : State} (h : outputEffect m1 s = .ok t) : Emits s t := by
  obtain ⟨a, -, -, rfl⟩ := (outputEffect_ok_iff m1 s t).mp h
  exact ⟨⟨a, rfl⟩, rfl⟩

/-- Only Output emits (42_io.md R171); a fault emits nothing (40_engine.md R121). -/
theorem exec_output_cases {i : Instr} {s t : State} (h : exec i s = .next t) :
    KeepsOutput s t ∨ (∃ m1 m2 m3, i = .output m1 m2 m3) ∧ Emits s t := by
  obtain hok | ⟨k, -, rfl⟩ := exec_next h
  case inr => exact .inl ⟨rfl, rfl⟩
  cases i with
  | add | multiply | lessThan | equals => exact .inl (keepsOutput_of_threeOperand hok)
  | input => exact .inl (keepsOutput_of_inputEffect hok)
  | output m1 m2 m3 => exact .inr ⟨⟨m1, m2, m3, rfl⟩, emits_of_outputEffect hok⟩
  | jumpIfTrue | jumpIfFalse => exact .inl (keepsOutput_of_jumpWhen hok)
  | halt =>
    obtain rfl := Except.ok.inj hok
    exact .inl ⟨rfl, rfl⟩

theorem engineStep_output_cases {s t : State} (h : engineStep s = .next t) :
    KeepsOutput s t ∨ isOutputWord (s.mem.read s.ip) = true ∧ Emits s t := by
  obtain ⟨k, rfl⟩ | ⟨i, -, hdec, hexec⟩ := engineStep_next s t h
  · exact .inl ⟨rfl, rfl⟩
  · obtain hkeep | ⟨⟨m1, m2, m3, rfl⟩, hemit⟩ := exec_output_cases hexec
    · exact .inl hkeep
    · exact .inr ⟨by simp [isOutputWord, hdec], hemit⟩

theorem step_output_cases {s t : State} (h : step s = .next t) :
    KeepsOutput s t ∨ isOutputWord (s.mem.read s.ip) = true ∧ Emits s t := by
  obtain rfl | hstep := step_next_running h
  · exact .inl ⟨rfl, rfl⟩
  · exact (engineStep_output_cases hstep :)

theorem engineStep_unreadOutput_le {s t : State} (h : engineStep s = .next t) : unreadOutput s ≤ unreadOutput t := by
  obtain hkeep | ⟨-, hemit⟩ := engineStep_output_cases h
  · exact hkeep.unreadOutput_eq.ge
  · exact hemit.unreadOutput_le

/-- A run takes no output. -/
theorem runCommand_unreadOutput_le {n : Nat} {s t : State} (h : runCommand n s = some (.next t)) :
    unreadOutput s ≤ unreadOutput t := by
  obtain rfl | hloop := runCommand_next h
  · exact le_rfl
  · exact runLoop_preserves (s := s.withStatus .running) (P := fun u => unreadOutput s ≤ unreadOutput u)
      (fun _ _ hu hstep => hu.trans (engineStep_unreadOutput_le hstep)) le_rfl hloop

/-- take_output consumes one entry and answers it, or changes nothing and answers none (40_engine.md R135). -/
theorem takeOutput_cases (s : State) :
    (∃ v, s.outQ[s.outRd]? = some v ∧ takeOutput s = (s.consumeOutput, some v)) ∨
      s.outQ[s.outRd]? = none ∧ takeOutput s = (s, none) := by
  cases hq : s.outQ[s.outRd]? with
  | some v => exact .inl ⟨v, rfl, by simp [takeOutput, hq]⟩
  | none => exact .inr ⟨rfl, by simp [takeOutput, hq]⟩

theorem unreadOutput_consumeOutput_le (s : State) : unreadOutput s.consumeOutput ≤ unreadOutput s := by
  simp only [unreadOutput, State.consumeOutput_outQ, State.consumeOutput_outRd]
  omega

end Sys2Proof.Machine
end

section
/-! PROOFS. The ip after an instruction and the unread-output count (10_state.md R35, R43). -/

namespace Sys2Proof.Machine

/-! ### The ip of each shape of instruction (10_state.md R35) -/

theorem threeOperand_ip {g : Config → Word → Word → Except FaultKind Word} {m1 m2 : Mode} {s t : State}
    (h : threeOperand g m1 m2 s = .ok t) : t.ip = s.ip + 4 := by
  obtain ⟨-, -, d, r, -, -, -, -, -, rfl⟩ := (threeOperand_ok_iff g m1 m2 s t).mp h
  rfl

theorem inputEffect_consumed {s t : State} (h : inputEffect s = .ok t) (hq : s.inRd < s.inQ.length) :
    t.inRd = s.inRd + 1 ∧ t.ip = s.ip + 2 := by
  obtain ⟨d, -, ⟨hnone, -⟩ | ⟨v, -, -, rfl⟩⟩ := (inputEffect_ok_iff s t).mp h
  · exact absurd (List.getElem?_eq_none_iff.mp hnone) (by omega)
  · exact ⟨rfl, rfl⟩

theorem inputEffect_blocked {s t : State} (h : inputEffect s = .ok t) (hq : s.inQ.length ≤ s.inRd) :
    t = s.withStatus .waitingForInput := by
  obtain ⟨d, -, ⟨-, ht⟩ | ⟨v, hsome, -⟩⟩ := (inputEffect_ok_iff s t).mp h
  · exact ht
  · simp [List.getElem?_eq_none hq] at hsome

theorem outputEffect_ip {m1 : Mode} {s t : State} (h : outputEffect m1 s = .ok t) : t.ip = s.ip + 2 := by
  obtain ⟨a, -, -, rfl⟩ := (outputEffect_ok_iff m1 s t).mp h
  rfl

/-- A jump that completes goes to its target when taken and three words on otherwise (43_control.md R185, R186). -/
theorem jumpWhen_ip {g : Word → Bool} {m1 m2 : Mode} {s t : State} {c w : Word} (hc : SourceReads s m1 1 c)
    (hw : SourceReads s m2 2 w) (h : jumpWhen g m1 m2 s = .ok t) :
    (g c = true → (t.ip : Int) = w.toInt) ∧ (g c = false → t.ip = s.ip + 3) := by
  obtain ⟨c', w', hc', hw', hjump⟩ := (jumpWhen_ok_iff g m1 m2 s t).mp h
  obtain rfl := hc.unique ((src_ok_iff ..).mp hc')
  obtain rfl := hw.unique ((src_ok_iff ..).mp hw')
  obtain ⟨hg, a, ha, rfl⟩ | ⟨hg, rfl⟩ := hjump
  · obtain ⟨h0, rfl⟩ := (toAddr_ok_iff w a).mp ha
    simp [hg, toNat_eq_toInt w h0]
  · simp [hg]

/-- Settles O15: a next state without a fault is the instruction's own final state, whose ip each shape gives. -/
theorem instructionPointerAdvances : Obligations.InstructionPointerAdvances := by
  intro m1 m2 m3 s t _ ht
  refine ⟨fun i hi h => ?threeOperand, fun h => ?input, fun h => ?output,
    fun c g hc hg => ⟨fun h => ?jumpIfTrue, fun h => ?jumpIfFalse⟩, fun h => ?halt⟩
  all_goals have heff := effectOf_of_exec ht h
  case threeOperand =>
    obtain ⟨hcount, g, hg⟩ := effectOf_threeOperandInstrs hi
    exact ⟨threeOperand_ip (hg s ▸ heff), by rw [hcount]⟩
  case input =>
    refine ⟨fun hq => ?_, fun hq => ?_⟩
    · obtain ⟨hrd, hip⟩ := inputEffect_consumed heff hq
      exact ⟨hrd, hip, rfl⟩
    · obtain rfl := inputEffect_blocked heff hq.ge
      exact ⟨rfl, rfl⟩
  case output => exact ⟨outputEffect_ip heff, rfl⟩
  case jumpIfTrue =>
    obtain ⟨htaken, hnot⟩ := jumpWhen_ip hc hg heff
    exact ⟨fun h0 => htaken ((wordIsTrue_iff c).mpr h0), fun h0 => ⟨hnot (by simp [wordIsTrue_eq_false_iff, h0]), rfl⟩⟩
  case jumpIfFalse =>
    obtain ⟨htaken, hnot⟩ := jumpWhen_ip hc hg heff
    exact ⟨fun h0 => htaken (by simp [wordIsTrue_eq_false_iff, h0]),
      fun h0 => ⟨hnot (by simp [(wordIsTrue_iff c).mpr h0]), rfl⟩⟩
  case halt =>
    obtain rfl := Except.ok.inj heff
    rfl

/-! ### The unread-output count (10_state.md R43) -/

theorem step_unreadOutput {s t : State} (h : step s = .next t) :
    unreadOutput s ≤ unreadOutput t ∧ t.outRd = s.outRd ∧
      (unreadOutput s < unreadOutput t → isOutputWord (s.mem.read s.ip) = true) := by
  obtain hkeep | ⟨hout, hemit⟩ := step_output_cases h
  · have heq := hkeep.unreadOutput_eq
    exact ⟨heq.ge, hkeep.2, fun hlt => absurd hlt heq.le.not_gt⟩
  · exact ⟨hemit.unreadOutput_le, hemit.2, fun _ => hout⟩

theorem takeOutput_unreadOutput (s : State) :
    unreadOutput (takeOutput s).1 ≤ unreadOutput s ∧
      (unreadOutput (takeOutput s).1 < unreadOutput s → ∃ v, (takeOutput s).2 = some v) := by
  obtain ⟨v, -, htake⟩ | ⟨-, htake⟩ := takeOutput_cases s <;> rw [htake]
  · exact ⟨unreadOutput_consumeOutput_le s, fun _ => ⟨v, rfl⟩⟩
  · exact ⟨le_rfl, fun hlt => absurd hlt (lt_irrefl _)⟩

/-- Settles O39: of the steps only Output emits, and of the commands only take_output consumes and only a run takes steps. -/
theorem unreadOutputCount : Obligations.UnreadOutputCount := by
  refine ⟨fun s t h => step_unreadOutput h, fun s t fuel c r h => ?_⟩
  obtain ⟨-, ⟨v, rfl, -, -, rfl⟩ | ⟨rfl, -, hrun⟩ | ⟨rfl, rfl, rfl⟩ | ⟨-, -, rfl⟩⟩ := hostCommand_next fuel c s t r h
  · exact ⟨fun hlt => absurd hlt (lt_irrefl _), fun hlt => absurd hlt (lt_irrefl _)⟩
  · have hle := runCommand_unreadOutput_le hrun
    exact ⟨fun hlt => absurd hlt hle.not_gt, fun _ => rfl⟩
  · obtain ⟨hle, hfall⟩ := takeOutput_unreadOutput s
    exact ⟨fun hlt => ⟨rfl, (hfall hlt).imp fun v hv => by rw [hv]⟩, fun hlt => absurd hlt hle.not_gt⟩
  · exact ⟨fun hlt => absurd hlt (lt_irrefl _), fun hlt => absurd hlt (lt_irrefl _)⟩

end Sys2Proof.Machine
end

section
/-! PROOFS. What the mode digits of an instruction word select and which of them an instruction reads (30_encoding.md R90, R93,
R97, R98). -/

namespace Sys2Proof.Machine

/-! ### Mode digits (30_encoding.md R90, R93) -/

/-- Every word that is not negative and has a known opcode decodes, with the modes its three mode digits select. -/
theorem decode_of_mem_knownOpcodes {w : Word} (h0 : 0 ≤ w.toInt) (hop : w.toNat % 100 ∈ knownOpcodes) :
    ∃ i, decode w = .ok i ∧
      modesOf i = (modeOfDigit (digit 2 w.toNat), modeOfDigit (digit 3 w.toNat), modeOfDigit (digit 4 w.toNat)) := by
  cases hi : instrOfOpcode (w.toNat % 100) (modeOfDigit (digit 2 w.toNat)) (modeOfDigit (digit 3 w.toNat))
    (modeOfDigit (digit 4 w.toNat)) with
  | none => exact absurd hop ((instrOfOpcode_none_iff ..).mp hi)
  | some i =>
    obtain ⟨-, hmodes, -⟩ := instrOfOpcode_some _ _ _ _ i hi
    exact ⟨i, (decode_ok_iff w i).mpr ⟨h0, hi⟩, hmodes⟩

/-- Settles O4: the word decodes with the modes of its digits, and R93 reads each digit at its place of R90. -/
theorem modeDigitsSelectModes : Obligations.ModeDigitsSelectModes := by
  intro w h0 hop
  obtain ⟨i, hdec, hmodes⟩ := decode_of_mem_knownOpcodes h0 hop
  refine ⟨i, hdec, ?_⟩
  rw [hmodes]
  exact ⟨rfl, rfl, rfl⟩

/-! ### Mode digits an instruction does not read (30_encoding.md R97, R98) -/

/-- Instructions with one effect on a state give one answer there. -/
theorem exec_eq_of_effectOf_eq {i j : Instr} {s : State} (h : effectOf i s = effectOf j s) : exec i s = exec j s := by
  rw [exec_eq_settle, exec_eq_settle, h]

/-- The destination address is the operand word itself (R97). -/
theorem dst_eq_operandAt {s : State} {k : Nat} (hk : addrOk s (s.ip + k) = true) (h0 : 0 ≤ (operandAt s k).toInt) :
    dst s k = .ok (operandAt s k).toNat :=
  (dst_ok_iff ..).mpr ⟨hk, h0, toNat_eq_toInt _ h0⟩

/-- Settles O6: no effect of the five writing instructions mentions the mode of its destination. -/
theorem destinationModeIsNotConsulted : Obligations.DestinationModeIsNotConsulted := by
  intro m1 m2 m m' s
  refine ⟨?add, ?multiply, ?lessThan, ?equals, ?input, fun k hk h0 => dst_eq_operandAt hk h0⟩
  all_goals exact exec_eq_of_effectOf_eq rfl

/-- Settles O7: no effect mentions the mode of an operand its instruction lacks. -/
theorem absentModesAreNotRead : Obligations.AbsentModesAreNotRead := by
  intro m1 m2 m3 n1 n2 n3 s
  refine ⟨?input, ?output, ?jumpIfTrue, ?jumpIfFalse, ?halt⟩
  all_goals exact exec_eq_of_effectOf_eq rfl

end Sys2Proof.Machine
end

section
/-! SUPPORT. What a step does from a fetched instruction and what the host commands of an unfaulted instance answer, each said once
(40_engine.md R120, R131, R136, R138). -/

namespace Sys2Proof.Machine

/-- A Running instance without a fault record runs the instruction it fetches (40_engine.md R120). -/
theorem step_of_fetch {s : State} {i : Instr} (hf : s.fault = none) (hrun : s.status = .running) (hi : fetch s = .ok i) :
    step s = exec i s := by
  have hstep : step s = engineStep s := by simp [step, stepOnce, hf, hrun]
  rw [hstep, engineStep_of_fetch s i hi]

theorem unlessFaulted_of_none {α : Type} {s : State} (hf : s.fault = none) (x : Host.Outcome α Fault Refusal) :
    unlessFaulted s x = x := by
  simp [unlessFaulted, hf]

/-- A submit_input that is not refused appends the value and unblocks a waiting instance (40_engine.md R131). -/
theorem submitInput_next {v : Word} {s t : State} (h : submitInput v s = .next t) :
    s.fault = none ∧ t = (s.enqueueInput v).withStatus (if s.status = .waitingForInput then .running else s.status) := by
  cases hf : s.fault with
  | some p => simp [submitInput, unlessFaulted, hf] at h
  | none =>
    rw [submitInput, unlessFaulted_of_none hf] at h
    split at h
    · exact ⟨rfl, (Host.Outcome.next.inj h).symm⟩
    · cases h

/-- peek_last_output answers the last entry ever emitted, taken or not (40_engine.md R136). -/
theorem hostCommand_peekLastOutput (fuel : Nat) {s : State} (hf : s.fault = none) :
    hostCommand fuel .peekLastOutput s = some (.next (s, .optWord s.outQ.getLast?)) := by
  rw [hostCommand, unlessFaulted_of_none hf, peekLastOutput, List.getLast?_eq_getElem?]

theorem hostCommand_isHaltedOrBlocked (fuel : Nat) {s : State} (hf : s.fault = none) :
    hostCommand fuel .isHaltedOrBlocked s =
      some (.next (s, .bool (decide (s.status = .halted ∨ s.status = .waitingForInput)))) := by
  rw [hostCommand, unlessFaulted_of_none hf, isHaltedOrBlocked, Bool.decide_or, beq_eq_decide, beq_eq_decide]

theorem hostCommand_isHaltedOrBlocked_of_running (fuel : Nat) {s : State} (hf : s.fault = none)
    (hrun : s.status = .running) : hostCommand fuel .isHaltedOrBlocked s = some (.next (s, .bool false)) := by
  simp [hostCommand_isHaltedOrBlocked fuel hf, hrun]

end Sys2Proof.Machine
end

section
/-! PROOFS. Suspension (40_engine.md R123) and the commands that read the output queue and the status (R134 to R138). -/

namespace Sys2Proof.Machine

/-! ### Suspension (40_engine.md R123) -/

theorem threeOperand_status {g : Config → Word → Word → Except FaultKind Word} {m1 m2 : Mode} {s t : State}
    (h : threeOperand g m1 m2 s = .ok t) : t.status = s.status := by
  obtain ⟨-, -, d, r, -, -, -, -, -, rfl⟩ := (threeOperand_ok_iff g m1 m2 s t).mp h
  rfl

theorem outputEffect_status {m1 : Mode} {s t : State} (h : outputEffect m1 s = .ok t) : t.status = s.status := by
  obtain ⟨a, -, -, rfl⟩ := (outputEffect_ok_iff m1 s t).mp h
  rfl

theorem jumpWhen_status {g : Word → Bool} {m1 m2 : Mode} {s t : State} (h : jumpWhen g m1 m2 s = .ok t) :
    t.status = s.status := by
  obtain ⟨-, -, -, -, ⟨-, a, -, rfl⟩ | ⟨-, rfl⟩⟩ := (jumpWhen_ok_iff g m1 m2 s t).mp h <;> rfl

/-- What executing an instruction does to the status: it keeps it, or Halt sets it, or an Input with no unread entry suspends and
changes nothing else (10_state.md R40, 42_io.md R170). -/
theorem exec_status_cases {i : Instr} {s t : State} (h : exec i s = .next t) :
    t.status = s.status ∨ t.status = .halted ∨
      (∃ m1 m2 m3, i = .input m1 m2 m3) ∧ s.inQ[s.inRd]? = none ∧ t = s.withStatus .waitingForInput := by
  obtain hok | ⟨k, -, rfl⟩ := exec_next h
  case inr => exact .inl rfl
  cases i with
  | add | multiply | lessThan | equals => exact .inl (threeOperand_status hok)
  | input m1 m2 m3 =>
    obtain ⟨d, -, ⟨hnone, ht⟩ | ⟨v, -, -, rfl⟩⟩ := (inputEffect_ok_iff s t).mp hok
    · exact .inr (.inr ⟨⟨m1, m2, m3, rfl⟩, hnone, ht⟩)
    · exact .inl rfl
  | output => exact .inl (outputEffect_status hok)
  | jumpIfTrue | jumpIfFalse => exact .inl (jumpWhen_status hok)
  | halt =>
    obtain rfl := Except.ok.inj hok
    exact .inr (.inl rfl)

/-- A step that makes an instance wait ran, without a fault, an Input with no unread entry. -/
theorem step_suspends {s t : State} (h : step s = .next t) (hs : s.status ≠ .waitingForInput)
    (ht : t.status = .waitingForInput) :
    ∃ m1 m2 m3, fetch s = .ok (.input m1 m2 m3) ∧ s.inQ[s.inRd]? = none ∧ t = s.withStatus .waitingForInput := by
  obtain ⟨-, ⟨hrun, hstep⟩ | ⟨hwait, -⟩ | ⟨-, rfl⟩⟩ := step_next s t h
  · obtain ⟨k, rfl⟩ | ⟨i, hip, hdec, hexec⟩ := engineStep_next s t hstep
    · exact absurd ht hs
    · obtain hkeep | hhalt | ⟨⟨m1, m2, m3, rfl⟩, hnone, rfl⟩ := exec_status_cases hexec
      · exact absurd (hkeep.symm.trans ht) hs
      · simp [hhalt] at ht
      · exact ⟨m1, m2, m3, (fetch_ok_iff ..).mpr ⟨hip, hdec⟩, hnone, rfl⟩
  · exact absurd hwait hs
  · exact absurd ht hs

/-- An Input whose destination resolves suspends where no entry is unread (42_io.md R170). -/
theorem exec_input_suspends {m1 m2 m3 : Mode} {s : State} {d : Addr} (hd : DestReads s 1 d)
    (hq : s.inQ.length ≤ s.inRd) : exec (.input m1 m2 m3) s = .next (s.withStatus .waitingForInput) :=
  (exec_eq_settle ..).trans <| settle_ok _ _ _ <|
    (inputEffect_ok_iff ..).mpr ⟨d, (dst_ok_iff ..).mpr hd, .inl ⟨List.getElem?_eq_none hq, rfl⟩⟩

/-- A submitted value makes a suspended instance run again the instruction it fetched: memory, ip and limit are kept. -/
theorem step_submitInput_suspended {s u : State} {i : Instr} {v : Word} (hi : fetch s = .ok i)
    (h : submitInput v (s.withStatus .waitingForInput) = .next u) : step u = exec i u := by
  obtain ⟨hf, rfl⟩ := submitInput_next h
  exact step_of_fetch hf (by simp) hi

/-- Settles O36: of the instructions only an Input with no unread entry sets WaitingForInput, and as it keeps memory and ip, the
step after submit_input fetches it again. -/
theorem suspensionOnlyAtInput : Obligations.SuspensionOnlyAtInput := by
  refine ⟨fun s m1 m2 m3 d hf hrun hip hdec hd hq => ?suspends, fun s t h hs ht => ?onlyThere⟩
  case suspends =>
    rw [step_of_fetch hf hrun ((fetch_ok_iff ..).mpr ⟨hip, hdec⟩)]
    exact exec_input_suspends hd hq.ge
  case onlyThere =>
    obtain ⟨m1, m2, m3, hfetch, hnone, rfl⟩ := step_suspends h hs ht
    obtain ⟨-, hdec⟩ := (fetch_ok_iff ..).mp hfetch
    exact ⟨m1, m2, m3, hdec, hnone, rfl, fun v u hsub => step_submitInput_suspended hfetch hsub⟩

/-! ### Observers and take_output (40_engine.md R134 to R138) -/

/-- Settles O47: without a fault record every observer answers its function of the state; construct and the unblocking
submit_input leave the status Running. -/
theorem observersAnswer : Obligations.ObserversAnswer := by
  intro fuel s hf
  refine ⟨?hasUnread, fun hq => ?peekNone, fun xs x hq => ?peekSome, ?isHalted, hostCommand_isHaltedOrBlocked fuel hf,
    fun c image => ?constructed, fun v t hwait hsub => ?unblocked⟩
  case hasUnread => rw [hostCommand, unlessFaulted_of_none hf, hasUnreadOutput]
  case peekNone => rw [hostCommand_peekLastOutput fuel hf, hq, List.getLast?_nil]
  case peekSome => rw [hostCommand_peekLastOutput fuel hf, hq, List.getLast?_concat]
  case isHalted => rw [hostCommand, unlessFaulted_of_none hf, isHalted, beq_eq_decide]
  case constructed => exact hostCommand_isHaltedOrBlocked_of_running fuel rfl rfl
  case unblocked =>
    obtain ⟨-, rfl⟩ := submitInput_next hsub
    exact hostCommand_isHaltedOrBlocked_of_running fuel hf (by simp [hwait])

/-- Settles O48: the entry at the output cursor exists exactly where one is unread. -/
theorem takeOutputTakesTheOldest : Obligations.TakeOutputTakesTheOldest := by
  intro fuel s hf
  have hcmd : hostCommand fuel .takeOutput s = some (.next ((takeOutput s).1, .optWord (takeOutput s).2)) := by
    rw [hostCommand, unlessFaulted_of_none hf]
  rw [hcmd]
  obtain ⟨v, hv, htake⟩ | ⟨hnone, htake⟩ := takeOutput_cases s <;> rw [htake]
  · obtain ⟨hlt, rfl⟩ := List.getElem?_eq_some_iff.mp hv
    exact ⟨fun _ => rfl, fun hle => absurd hlt hle.not_gt⟩
  · have hle : s.outQ.length ≤ s.outRd := List.getElem?_eq_none_iff.mp hnone
    exact ⟨fun hlt => absurd hlt hle.not_gt, fun _ => rfl⟩

end Sys2Proof.Machine
end

section
/-! PROOFS. The results of the comparisons (41_arithmetic.md R152, R153, R155). -/

namespace Sys2Proof.Machine

/-- A three-operand instruction whose operands read and whose computation answers writes the result at an address below the limit and
advances the ip by 4 (40_engine.md R120); nothing else changes. -/
theorem exec_threeOperand_completes {g : Config → Word → Word → Except FaultKind Word} {i : Instr} {m1 m2 : Mode} {s : State}
    {a b r : Word} {d : Addr} (heff : effectOf i s = threeOperand g m1 m2 s) (ha : SourceReads s m1 1 a)
    (hb : SourceReads s m2 2 b) (hd : DestReads s 3 d) (hr : g s.cfg a b = .ok r) (hok : addrOk s d = true) :
    exec i s = .next { s with mem := s.mem.write d r, ip := s.ip + 4 } := by
  have hfinal : threeOperand g m1 m2 s = .ok ((s.withMem (s.mem.write d r)).advance 4) :=
    (threeOperand_ok_iff ..).mpr
      ⟨a, b, d, r, (src_ok_iff ..).mpr ha, (src_ok_iff ..).mpr hb, (dst_ok_iff ..).mpr hd, hr, hok, rfl⟩
  rw [exec_eq_settle, heff]
  exact settle_ok _ _ _ hfinal

theorem boolWord_decide (p : Prop) [Decidable p] : boolWord (decide p) = if p then 1 else 0 := by
  simp [boolWord]

theorem ltResult_eq (c : Config) (a b : Word) : ltResult c a b = .ok (if a.toInt < b.toInt then 1 else 0) := by
  rw [ltResult, boolWord_decide]

theorem eqResult_eq (c : Config) (a b : Word) : eqResult c a b = .ok (if a.toInt = b.toInt then 1 else 0) := by
  rw [eqResult, boolWord_decide]

/-- Settles O19: neither comparison's result can be a fault, so each completes with it; on equal operands the order is irreflexive
and equality reflexive. -/
theorem comparisonsWriteOneOrZero : Obligations.ComparisonsWriteOneOrZero := by
  intro m1 m2 m3 s a b d ha hb hd hok
  have hlt := exec_threeOperand_completes (i := .lessThan m1 m2 m3) rfl ha hb hd (ltResult_eq s.cfg a b) hok
  have heq := exec_threeOperand_completes (i := .equals m1 m2 m3) rfl ha hb hd (eqResult_eq s.cfg a b) hok
  refine ⟨hlt, heq, ?equalOperands⟩
  case equalOperands =>
    rintro rfl
    exact ⟨by rwa [if_neg (lt_irrefl _)] at hlt, by rwa [if_pos rfl] at heq⟩

end Sys2Proof.Machine
end

section
/-! SUPPORT. The ways an instruction completes, one inductive relation for the frames and invariants below, and the run loop as the
finite step sequence it is (40_engine.md R120, R124, R132). -/

namespace Sys2Proof.Machine

/-! ### How an instruction completes -/

/-- A fault an instruction raises is recorded at the ip, and nothing else changes (40_engine.md R121). -/
theorem exec_of_effectOf_error {i : Instr} {s : State} {f : FaultKind} (h : effectOf i s = .error f) :
    exec i s = .next { s with fault := some (f, s.ip) } :=
  (exec_eq_settle i s).trans (settle_error s _ f h)

theorem exec_of_effectOf_ok {i : Instr} {s t : State} (h : effectOf i s = .ok t) : exec i s = .next t :=
  (exec_eq_settle i s).trans (settle_ok s t _ h)

/-- Instruction `i` completes in `s` with the state `t`, without a fault: one constructor per way to complete, with what later proofs
need of the operands (41_arithmetic.md, 42_io.md, 43_control.md). -/
inductive Completes (s : State) : Instr → State → Prop where
  | writes {i : Instr} {m1 m2 m3 : Mode} {d : Addr} (r : Word) : i ∈ threeOperandInstrs m1 m2 m3 → dst s 3 = .ok d →
      Completes s i ((s.withMem (s.mem.write d r)).advance 4)
  | suspends {m1 m2 m3 : Mode} {d : Addr} : dst s 1 = .ok d → s.inQ[s.inRd]? = none →
      Completes s (.input m1 m2 m3) (s.withStatus .waitingForInput)
  | consumes {m1 m2 m3 : Mode} {d : Addr} {v : Word} : dst s 1 = .ok d → s.inQ[s.inRd]? = some v →
      Completes s (.input m1 m2 m3) (((s.withMem (s.mem.write d v)).consumeInput).advance 2)
  | emits {m1 m2 m3 : Mode} {a : Word} : src s m1 1 = .ok a → Completes s (.output m1 m2 m3) ((s.emit a).advance 2)
  | jumps {i : Instr} {m1 m2 m3 : Mode} (a : Addr) : i ∈ [Instr.jumpIfTrue m1 m2 m3, Instr.jumpIfFalse m1 m2 m3] →
      Completes s i (s.jumpTo a)
  | halts {m1 m2 m3 : Mode} : Completes s (.halt m1 m2 m3) (s.withStatus .halted)

theorem completes_of_threeOperand {g : Config → Word → Word → Except FaultKind Word} {i : Instr} {m1 m2 m3 : Mode}
    {s t : State} (hi : i ∈ threeOperandInstrs m1 m2 m3) (h : threeOperand g m1 m2 s = .ok t) : Completes s i t := by
  obtain ⟨-, -, d, r, -, -, hd, -, -, rfl⟩ := (threeOperand_ok_iff g m1 m2 s t).mp h
  exact .writes r hi hd

/-- Either way a jump only sets the ip: to its target, or three words on. -/
theorem completes_of_jumpWhen {g : Word → Bool} {i : Instr} {m1 m2 m3 : Mode} {s t : State}
    (hi : i ∈ [Instr.jumpIfTrue m1 m2 m3, Instr.jumpIfFalse m1 m2 m3]) (h : jumpWhen g m1 m2 s = .ok t) :
    Completes s i t := by
  obtain ⟨-, -, -, -, ⟨-, a, -, rfl⟩ | ⟨-, rfl⟩⟩ := (jumpWhen_ok_iff g m1 m2 s t).mp h
  · exact .jumps a hi
  · exact .jumps (s.ip + 3) hi

theorem completes_of_effectOf {i : Instr} {s t : State} (h : effectOf i s = .ok t) : Completes s i t := by
  cases i with
  | add m1 m2 m3 | multiply m1 m2 m3 | lessThan m1 m2 m3 | equals m1 m2 m3 =>
    exact completes_of_threeOperand (m3 := m3) (by simp [threeOperandInstrs]) h
  | input =>
    obtain ⟨d, hd, ⟨hnone, rfl⟩ | ⟨v, hv, -, rfl⟩⟩ := (inputEffect_ok_iff s t).mp h
    · exact .suspends hd hnone
    · exact .consumes hd hv
  | output m1 =>
    obtain ⟨a, ha, -, rfl⟩ := (outputEffect_ok_iff m1 s t).mp h
    exact .emits ha
  | jumpIfTrue m1 m2 m3 | jumpIfFalse m1 m2 m3 => exact completes_of_jumpWhen (m3 := m3) (by simp) h
  | halt =>
    obtain rfl := Except.ok.inj h
    exact .halts

/-- An instruction completes or its fault is taken on the state it began with (40_engine.md R121). -/
theorem exec_completes_or_raises {i : Instr} {s t : State} (h : exec i s = .next t) :
    Completes s i t ∨ ∃ k, t = raise k s := by
  obtain hok | ⟨k, -, rfl⟩ := exec_next h
  · exact .inl (completes_of_effectOf hok)
  · exact .inr ⟨k, rfl⟩

/-- A step of the engine takes a fault or completes the instruction it fetched. -/
theorem engineStep_completes_or_raises {s t : State} (h : engineStep s = .next t) :
    (∃ i, addrOk s s.ip = true ∧ decode (s.mem.read s.ip) = .ok i ∧ Completes s i t) ∨ ∃ k, t = raise k s := by
  obtain hraise | ⟨i, hip, hdec, hexec⟩ := engineStep_next s t h
  · exact .inr hraise
  · exact (exec_completes_or_raises hexec).imp_left fun hc => ⟨i, hip, hdec, hc⟩

/-! ### What completing an instruction keeps -/

section
variable {s t : State} {i : Instr}

theorem Completes.fault_eq (h : Completes s i t) : t.fault = s.fault := by
  cases h <;> rfl

theorem Completes.parameters_eq (h : Completes s i t) : t.cfg = s.cfg ∧ t.imageLen = s.imageLen := by
  cases h <;> exact ⟨rfl, rfl⟩

theorem Completes.inQ_eq (h : Completes s i t) : t.inQ = s.inQ := by
  cases h <;> rfl

/-- An instruction keeps the status, or is an Input that suspends, or is Halt. -/
theorem Completes.status_cases (h : Completes s i t) :
    t.status = s.status ∨
      (∃ m1 m2 m3 d, i = .input m1 m2 m3 ∧ dst s 1 = .ok d ∧ s.inQ[s.inRd]? = none ∧ t = s.withStatus .waitingForInput) ∨
      ∃ m1 m2 m3, i = .halt m1 m2 m3 ∧ t = s.withStatus .halted := by
  cases h with
  | writes | consumes | emits | jumps => exact .inl rfl
  | suspends hd hq => exact .inr (.inl ⟨_, _, _, _, rfl, hd, hq, rfl⟩)
  | halts => exact .inr (.inr ⟨_, _, _, rfl, rfl⟩)

end

/-! ### The engine's step keeps the parameters and the input queue -/

theorem engineStep_parameters_eq {s t : State} (h : engineStep s = .next t) : t.cfg = s.cfg ∧ t.imageLen = s.imageLen := by
  obtain ⟨i, -, -, hc⟩ | ⟨k, rfl⟩ := engineStep_completes_or_raises h
  · exact hc.parameters_eq
  · exact ⟨rfl, rfl⟩

/-! ### Runs as finite step sequences (40_engine.md R124, R132) -/

theorem runLoop_succ_of_last {s t : State} (n : Nat) (h : engineStep s = .next t) (ht : runContinues t = false) :
    runLoop (n + 1) s = some (.next t) := by
  simp [runLoop, h, ht]

theorem runLoop_succ_of_more {s t : State} (n : Nat) (h : engineStep s = .next t) (ht : runContinues t = true) :
    runLoop (n + 1) s = runLoop n t := by
  simp [runLoop, h, ht]

/-- Every instruction answers a next state: its final state or its fault taken (60_exceptions.md R203). -/
theorem exec_isNext (i : Instr) (s : State) : ∃ t, exec i s = .next t := by
  rw [exec_eq_settle]
  cases effectOf i s with
  | ok t => exact ⟨t, rfl⟩
  | error k => exact ⟨raise k s, rfl⟩

theorem engineStep_isNext (s : State) : ∃ t, engineStep s = .next t := by
  cases hf : fetch s with
  | ok i => rw [engineStep_of_fetch s i hf]; exact exec_isNext i s
  | error k => exact ⟨_, engineStep_of_fetch_error s k hf⟩

theorem loopEnds_of_runLoop {n : Nat} {s t : State} (h : runLoop n s = some (.next t)) : LoopEnds s t := by
  induction n generalizing s with
  | zero => simp [runLoop] at h
  | succ n ih =>
    obtain ⟨u, hu⟩ := engineStep_isNext s
    cases hc : runContinues u with
    | true => exact .more hu hc (ih (runLoop_succ_of_more n hu hc ▸ h))
    | false =>
      obtain rfl : u = t := by simpa [runLoop_succ_of_last n hu hc] using h
      exact .last hu hc

theorem LoopEnds.exists_runLoop {s t : State} (h : LoopEnds s t) : ∃ n, runLoop n s = some (.next t) := by
  induction h with
  | last h hc => exact ⟨1, runLoop_succ_of_last 0 h hc⟩
  | more h hc _ ih =>
    obtain ⟨n, hn⟩ := ih
    exact ⟨n + 1, (runLoop_succ_of_more n h hc).trans hn⟩

/-- What every step of a Running engine keeps holds after a run that began Running. -/
theorem LoopEnds.preserves {P : State → Prop}
    (hP : ∀ u v, u.status = .running → P u → engineStep u = .next v → P v) {s t : State} (h : LoopEnds s t)
    (hrun : s.status = .running) (hs : P s) : P t := by
  induction h with
  | last h _ => exact hP _ _ hrun hs h
  | more h hc _ ih => exact ih ((runContinues_iff _).mp hc).1 (hP _ _ hrun hs h)

/-- A run that returns began without a fault, and raises ExecuteAfterHalt or is the finite step sequence from the state with the
status Running (40_engine.md R132, R133). -/
theorem runCommand_cases {n : Nat} {s t : State} (h : runCommand n s = some (.next t)) :
    s.fault = none ∧
      ((s.status = .halted ∧ t = raise .executeAfterHalt s) ∨
        (s.status ≠ .halted ∧ LoopEnds (s.withStatus .running) t)) := by
  unfold runCommand at h
  cases hf : s.fault with
  | some p => simp [hf] at h
  | none =>
    refine ⟨rfl, ?_⟩
    rw [hf, if_neg (by simp)] at h
    cases hst : s.status <;> rw [hst] at h
    case halted => exact .inl ⟨rfl, by simpa using h.symm⟩
    case running => exact .inr ⟨by simp, loopEnds_of_runLoop (by rwa [State.withStatus_running hst])⟩
    case waitingForInput => exact .inr ⟨by simp, loopEnds_of_runLoop h⟩

end Sys2Proof.Machine
end

section
/-! PROOFS. The invariant of reachable states (10_state.md R48, log entries 4 and 18), and the run of a waiting instance
(40_engine.md R133). -/

namespace Sys2Proof.Machine

/-! ### The clauses that speak of no status -/

/-- Memory in canonical form and both cursors within their queues: the part of Coherent that does not mention the status. -/
structure Bounded (s : State) : Prop where
  mem_wf : s.mem.wf = true
  input_cursor : s.inRd ≤ s.inQ.length
  output_cursor : s.outRd ≤ s.outQ.length

theorem Coherent.bounded {s : State} (h : Coherent s) : Bounded s := ⟨h.mem_wf, h.input_cursor, h.output_cursor⟩

/-- In a Running instance Coherent asks no more. -/
theorem Bounded.coherent_of_running {s : State} (h : Bounded s) (hrun : s.status = .running) : Coherent s where
  mem_wf := h.mem_wf
  input_cursor := h.input_cursor
  output_cursor := h.output_cursor
  waiting_drained hw := by simp [hrun] at hw
  waiting_at_input hw := by simp [hrun] at hw
  waiting_below_limit hw := by simp [hrun] at hw
  halted_at_halt hh := by simp [hrun] at hh

/-- Completing an instruction writes memory canonically, consumes only an entry that exists and drops no output. -/
theorem Bounded.completes {s t : State} {i : Instr} (hs : Bounded s) (h : Completes s i t) : Bounded t := by
  obtain ⟨hmem, hin, hout⟩ := hs
  cases h with
  | suspends | jumps | halts => exact ⟨hmem, hin, hout⟩
  | writes => exact ⟨Memory.wf_write _ _ _ hmem, hin, hout⟩
  | consumes _ hv =>
    obtain ⟨hlt, -⟩ := List.getElem?_eq_some_iff.mp hv
    exact ⟨Memory.wf_write _ _ _ hmem, hlt, hout⟩
  | emits => exact ⟨hmem, hin, by simpa using Nat.le_succ_of_le hout⟩

/-! ### Every step keeps the invariant -/

/-- A recorded fault changes nothing the invariant says of a state that is not Halted, and frees a Halted one of its clause. -/
theorem coherent_raise {s : State} (hs : Coherent s) (k : FaultKind) : Coherent (raise k s) where
  mem_wf := hs.mem_wf
  input_cursor := hs.input_cursor
  output_cursor := hs.output_cursor
  waiting_drained := hs.waiting_drained
  waiting_at_input := hs.waiting_at_input
  waiting_below_limit := hs.waiting_below_limit
  halted_at_halt _ hf := by simp at hf

/-- The instance suspended by an Input it fetched: the destination resolved, so a retry resolves it too. -/
theorem Bounded.coherent_of_suspended {s : State} {m1 m2 m3 : Mode} {d : Addr} (hs : Bounded s)
    (hip : addrOk s s.ip = true) (hdec : decode (s.mem.read s.ip) = .ok (.input m1 m2 m3)) (hd : dst s 1 = .ok d)
    (hq : s.inQ[s.inRd]? = none) : Coherent (s.withStatus .waitingForInput) := by
  obtain ⟨hok, h0, -⟩ := (dst_ok_iff s 1 d).mp hd
  have hdrained : s.inRd = s.inQ.length := le_antisymm hs.input_cursor (List.getElem?_eq_none_iff.mp hq)
  have hword : isInputWord (s.mem.read s.ip) = true := by simp [isInputWord, hdec]
  exact ⟨hs.mem_wf, hs.input_cursor, hs.output_cursor, fun _ => hdrained, fun _ => ⟨hword, h0⟩, fun _ => ⟨hip, hok⟩,
    fun hh => by simp at hh⟩

/-- The instance halted by a Halt it fetched. -/
theorem Bounded.coherent_of_halted {s : State} {m1 m2 m3 : Mode} (hs : Bounded s)
    (hdec : decode (s.mem.read s.ip) = .ok (.halt m1 m2 m3)) : Coherent (s.withStatus .halted) := by
  have hword : isHaltWord (s.mem.read s.ip) = true := by simp [isHaltWord, hdec]
  exact ⟨hs.mem_wf, hs.input_cursor, hs.output_cursor, fun hw => by simp at hw, fun hw => by simp at hw,
    fun hw => by simp at hw, fun _ _ => hword⟩

theorem Bounded.coherent_engineStep {s t : State} (hs : Bounded s) (hrun : s.status = .running)
    (h : engineStep s = .next t) : Coherent t := by
  obtain ⟨i, hip, hdec, hc⟩ | ⟨k, rfl⟩ := engineStep_completes_or_raises h
  · obtain hkeep | ⟨m1, m2, m3, d, rfl, hd, hq, rfl⟩ | ⟨m1, m2, m3, rfl, rfl⟩ := hc.status_cases
    · exact (hs.completes hc).coherent_of_running (hkeep.trans hrun)
    · exact hs.coherent_of_suspended hip hdec hd hq
    · exact hs.coherent_of_halted hdec
  · exact coherent_raise (hs.coherent_of_running hrun) k

/-- Settles O55: the engine runs with the status Running, where the invariant asks only what every completion keeps; an Input that
suspends and a Halt establish the clauses of the status they set. -/
theorem stepKeepsCoherent : Obligations.StepKeepsCoherent := by
  intro s t hs h
  obtain rfl | hstep := step_next_running h
  · exact coherent_raise hs _
  · exact Bounded.coherent_engineStep (s := s.withStatus .running) ⟨hs.mem_wf, hs.input_cursor, hs.output_cursor⟩ rfl hstep

/-! ### Every host command keeps the invariant -/

theorem unblocked_ne_waiting (st : Status) :
    (if st = .waitingForInput then Status.running else st) ≠ .waitingForInput := by
  cases st <;> simp

theorem eq_halted_of_unblocked_eq {st : Status} (h : (if st = .waitingForInput then Status.running else st) = .halted) :
    st = .halted := by
  cases st <;> simp_all

/-- A submitted value unblocks a waiting instance, so no clause of a waiting one is left to keep. -/
theorem coherent_submitInput {s : State} (hs : Coherent s) (v : Word) :
    Coherent ((s.enqueueInput v).withStatus (if s.status = .waitingForInput then .running else s.status)) where
  mem_wf := hs.mem_wf
  input_cursor := by simpa using Nat.le_succ_of_le hs.input_cursor
  output_cursor := hs.output_cursor
  waiting_drained hw := absurd hw (unblocked_ne_waiting s.status)
  waiting_at_input hw := absurd hw (unblocked_ne_waiting s.status)
  waiting_below_limit hw := absurd hw (unblocked_ne_waiting s.status)
  halted_at_halt hh := hs.halted_at_halt (eq_halted_of_unblocked_eq hh)

theorem coherent_takeOutput {s : State} (hs : Coherent s) : Coherent (takeOutput s).1 := by
  obtain ⟨v, hv, htake⟩ | ⟨-, htake⟩ := takeOutput_cases s <;> rw [htake]
  · obtain ⟨hlt, -⟩ := List.getElem?_eq_some_iff.mp hv
    exact ⟨hs.mem_wf, hs.input_cursor, hlt, hs.waiting_drained, hs.waiting_at_input, hs.waiting_below_limit,
      hs.halted_at_halt⟩
  · exact hs

theorem coherent_runCommand {n : Nat} {s t : State} (hs : Coherent s) (h : runCommand n s = some (.next t)) :
    Coherent t := by
  obtain ⟨-, ⟨-, rfl⟩ | ⟨-, hends⟩⟩ := runCommand_cases h
  · exact coherent_raise hs _
  · have hbound : Bounded (s.withStatus .running) := ⟨hs.mem_wf, hs.input_cursor, hs.output_cursor⟩
    exact hends.preserves (fun u v hrun hu hstep => hu.bounded.coherent_engineStep hrun hstep) rfl
      (hbound.coherent_of_running rfl)

/-- Settles O56: a run is a sequence of steps from the status Running, submit_input and take_output move what they may, and no other
command changes the state. -/
theorem commandsKeepCoherent : Obligations.CommandsKeepCoherent := by
  intro s t fuel c r hs h
  obtain ⟨-, ⟨v, rfl, -, -, rfl⟩ | ⟨rfl, -, hrun⟩ | ⟨rfl, rfl, -⟩ | ⟨-, -, rfl⟩⟩ := hostCommand_next fuel c s t r h
  · exact coherent_submitInput hs v
  · exact coherent_runCommand hs hrun
  · exact coherent_takeOutput hs
  · exact hs

/-! ### Construct and the reachable states -/

theorem coherent_construct (c : Config) (image : List Word) : Coherent (construct c image) :=
  Bounded.coherent_of_running ⟨Memory.wf_ofImage image 0, le_rfl, le_rfl⟩ rfl

/-- Settles O54: the reset state is Running, with empty memory and empty queues. -/
theorem coherentAtReset : Obligations.CoherentAtReset :=
  Bounded.coherent_of_running ⟨rfl, le_rfl, le_rfl⟩ rfl

/-- Settles O57, by induction on how the state was reached. -/
theorem reachableStatesAreCoherent : Obligations.ReachableStatesAreCoherent := by
  intro s h
  induction h with
  | construct c image => exact coherent_construct c image
  | step _ hstep ih => exact stepKeepsCoherent _ _ ih hstep
  | command fuel c r _ hcmd ih => exact commandsKeepCoherent _ _ fuel c r ih hcmd

/-! ### The run of a waiting instance (40_engine.md R133) -/

theorem isInputWord_iff (w : Word) : isInputWord w = true ↔ ∃ m1 m2 m3, decode w = .ok (.input m1 m2 m3) := by
  unfold isInputWord
  split <;> simp_all

/-- The retry of a waiting Input suspends it again: the invariant says that it is fetched, resolves and finds no entry. -/
theorem Coherent.retry_suspends {s : State} (hs : Coherent s) (hw : s.status = .waitingForInput) :
    engineStep (s.withStatus .running) = .next s := by
  obtain ⟨hword, h0⟩ := hs.waiting_at_input hw
  obtain ⟨hip, hop⟩ := hs.waiting_below_limit hw
  obtain ⟨m1, m2, m3, hdec⟩ := (isInputWord_iff _).mp hword
  have hfetch : fetch (s.withStatus .running) = .ok (.input m1 m2 m3) := (fetch_ok_iff ..).mpr ⟨hip, hdec⟩
  have hback : (s.withStatus .running).withStatus .waitingForInput = s := by cases s; cases hw; rfl
  rw [engineStep_of_fetch _ _ hfetch, exec_input_suspends (s := s.withStatus .running)
    ⟨hop, h0, (toNat_eq_toInt _ h0 :)⟩ (hs.waiting_drained hw).ge, hback]

/-- Settles O53: the step and the first step of the run both retry the Input, which ends the run. -/
theorem runOfWaitingChangesNothing : Obligations.RunOfWaitingChangesNothing := by
  intro s hs hf hw
  have hretry := hs.retry_suspends hw
  refine ⟨by simpa [step, stepOnce, hf, hw] using hretry, fun fuel => ?_⟩
  have hstop : runContinues s = false := by simp [runContinues, hw]
  simpa [runCommand, hf, hw] using runLoop_succ_of_last fuel hretry hstop

end Sys2Proof.Machine
end

section
/-! PROOFS. The decoder and the canonical encoder (30_encoding.md R90 to R93, R100 to R106). -/

namespace Sys2Proof.Machine

/-! ### The canonical word (R103) -/

theorem instrOfOpcode_opcodeOf (i : Instr) :
    instrOfOpcode (opcodeOf i) (modesOf i).1 (modesOf i).2.1 (modesOf i).2.2 = some i := by
  cases i <;> rfl

theorem encode_eq_packWord (i : Instr) :
    encode i = packWord (opcodeOf i) (modesOf (canonical i)).1 (modesOf (canonical i)).2.1 (modesOf (canonical i)).2.2 := by
  cases i <;> rfl

theorem encode_canonical (i : Instr) : encode (canonical i) = encode i := by
  cases i <;> rfl

theorem opcodeOf_canonical (i : Instr) : opcodeOf (canonical i) = opcodeOf i := by
  cases i <;> rfl

theorem canonical_of_wellFormed {i : Instr} (h : i.wellFormed = true) : canonical i = i := by
  cases i <;> simp_all [Instr.wellFormed, canonical]

theorem opcodeOf_lt (i : Instr) : opcodeOf i < 100 := by
  cases i <;> simp [opcodeOf]

theorem digitOfMode_lt (m : Mode) : digitOfMode m < 2 := by
  cases m <;> decide

theorem modeOfDigit_digitOfMode (m : Mode) : modeOfDigit (digitOfMode m) = m := by
  cases m <;> rfl

/-- The digit the encoder writes for a mode is the smallest that selects it (R93). -/
theorem digitOfMode_modeOfDigit_le (d : Nat) : digitOfMode (modeOfDigit d) ≤ d := by
  unfold modeOfDigit
  split
  · exact Nat.zero_le d
  · next h => exact Nat.pos_of_ne_zero h

theorem packWord_toNat {op : Nat} (hop : op < 100) (m1 m2 m3 : Mode) :
    (packWord op m1 m2 m3).toNat = op + 100 * digitOfMode m1 + 1000 * digitOfMode m2 + 10000 * digitOfMode m3 := by
  have h1 := digitOfMode_lt m1
  have h2 := digitOfMode_lt m2
  have h3 := digitOfMode_lt m3
  rw [packWord, BitVec.toNat_ofNat, Nat.mod_eq_of_lt (by omega)]

/-- The decimal digits of a packed word are its parts, so it decodes to the instruction they name. -/
theorem decode_packWord {op : Nat} {m1 m2 m3 : Mode} {i : Instr} (hop : op < 100)
    (h : instrOfOpcode op m1 m2 m3 = some i) : decode (packWord op m1 m2 m3) = .ok i := by
  have h1 := digitOfMode_lt m1
  have h2 := digitOfMode_lt m2
  have h3 := digitOfMode_lt m3
  have hn := packWord_toNat hop m1 m2 m3
  have hpos : 0 ≤ (packWord op m1 m2 m3).toInt := by
    rw [BitVec.toInt_eq_toNat_of_lt (by omega)]
    omega
  have hop' : (packWord op m1 m2 m3).toNat % 100 = op := by omega
  have hd1 : digit 2 (packWord op m1 m2 m3).toNat = digitOfMode m1 := by simp only [digit]; omega
  have hd2 : digit 3 (packWord op m1 m2 m3).toNat = digitOfMode m2 := by simp only [digit]; omega
  have hd3 : digit 4 (packWord op m1 m2 m3).toNat = digitOfMode m3 := by simp only [digit]; omega
  rw [decode_ok_iff, hop', hd1, hd2, hd3]
  simpa only [modeOfDigit_digitOfMode] using ⟨hpos, h⟩

theorem decode_encode (i : Instr) : decode (encode i) = .ok (canonical i) := by
  rw [encode_eq_packWord]
  refine decode_packWord (opcodeOf_lt i) ?_
  simpa only [opcodeOf_canonical] using instrOfOpcode_opcodeOf (canonical i)

/-- The canonical form drops the mode digits an instruction does not have, and keeps the others. -/
theorem digitOfMode_canonical_le (i : Instr) :
    digitOfMode (modesOf (canonical i)).1 ≤ digitOfMode (modesOf i).1 ∧
      digitOfMode (modesOf (canonical i)).2.1 ≤ digitOfMode (modesOf i).2.1 ∧
      digitOfMode (modesOf (canonical i)).2.2 ≤ digitOfMode (modesOf i).2.2 := by
  cases i <;> simp [canonical, modesOf, digitOfMode]

/-- The last five decimal digits of a number, each at its place, are at most the number. -/
theorem sum_of_digits_le (n : Nat) : n % 100 + 100 * digit 2 n + 1000 * digit 3 n + 10000 * digit 4 n ≤ n := by
  simp only [digit]
  omega

/-- No word that decodes to an instruction is smaller than its canonical word: each mode digit is at least the one written. -/
theorem encode_toNat_le {w : Word} {j : Instr} (h : decode w = .ok j) : (encode j).toNat ≤ w.toNat := by
  obtain ⟨-, hj⟩ := (decode_ok_iff w j).mp h
  obtain ⟨hop, hmodes, -⟩ := instrOfOpcode_some _ _ _ _ j hj
  obtain ⟨hc1, hc2, hc3⟩ := digitOfMode_canonical_le j
  simp only [hmodes] at hc1 hc2 hc3
  have hd1 := digitOfMode_modeOfDigit_le (digit 2 w.toNat)
  have hd2 := digitOfMode_modeOfDigit_le (digit 3 w.toNat)
  have hd3 := digitOfMode_modeOfDigit_le (digit 4 w.toNat)
  have hsum := sum_of_digits_le w.toNat
  rw [encode_eq_packWord, packWord_toNat (opcodeOf_lt j), hop]
  omega

/-- Settles O2: a well-formed instruction is its own canonical form, which its word decodes to, and the canonical word of any
instruction is that of its canonical form. -/
theorem decodeAgreesWithEncode : Obligations.DecodeAgreesWithEncode := by
  intro i hi
  refine ⟨by rw [decode_encode, canonical_of_wellFormed hi], ?_⟩
  rintro w j hdec rfl
  rw [encode_canonical]
  exact encode_toNat_le hdec

/-! ### What the decoder reads of a word (R90 to R92, R102) -/

theorem decode_of_not_mem_knownOpcodes {w : Word} (h0 : 0 ≤ w.toInt) (hop : w.toNat % 100 ∉ knownOpcodes) :
    decode w = .error (.unknownOpcode w) := by
  rw [decode, if_neg (not_lt.mpr h0), (instrOfOpcode_none_iff ..).mpr hop]

theorem opcodeOf_of_decode {w : Word} {i : Instr} (h : decode w = .ok i) : opcodeOf i = w.toNat % 100 := by
  obtain ⟨-, hi⟩ := (decode_ok_iff w i).mp h
  exact (instrOfOpcode_some _ _ _ _ i hi).1

/-- Settles O3: a word is refused when negative, and otherwise decodes exactly when its opcode is known, to an instruction of that
opcode. -/
theorem opcodeSelectsInstruction : Obligations.OpcodeSelectsInstruction := by
  intro w
  refine ⟨fun hneg => by rw [decode, if_pos hneg], fun h0 => ⟨fun hop => ?known, decode_of_not_mem_knownOpcodes h0⟩⟩
  case known =>
    obtain ⟨i, hdec, -⟩ := decode_of_mem_knownOpcodes h0 hop
    exact ⟨i, hdec, opcodeOf_of_decode hdec⟩

theorem digit_mod_100000 {k : Nat} (hk : k < 5) (n : Nat) : digit k (n % 100000) = digit k n := by
  simp only [digit]
  interval_cases k <;> omega

/-- Which instruction a word that is not negative decodes to is read from its last five digits. -/
theorem decode_toOption {w : Word} (h0 : 0 ≤ w.toInt) :
    (decode w).toOption = instrOfOpcode (w.toNat % 100000 % 100) (modeOfDigit (digit 2 (w.toNat % 100000)))
      (modeOfDigit (digit 3 (w.toNat % 100000))) (modeOfDigit (digit 4 (w.toNat % 100000))) := by
  rw [Nat.mod_mod_of_dvd _ (by decide), digit_mod_100000 (by decide), digit_mod_100000 (by decide),
    digit_mod_100000 (by decide)]
  unfold decode
  rw [if_neg (not_lt.mpr h0)]
  split <;> simp_all [Except.toOption]

/-- Settles O5: both words decode as their common last five digits say. -/
theorem higherDigitsAreIgnored : Obligations.HigherDigitsAreIgnored := by
  intro w v hw hv h
  rw [decode_toOption hw, decode_toOption hv, h]

/-- Settles O1: the decoder computes each worked word. -/
theorem writtenWordsDecode : Obligations.WrittenWordsDecode :=
  ⟨rfl, rfl, rfl, rfl, rfl, rfl, rfl, rfl, rfl, rfl, rfl, rfl, rfl, rfl⟩

end Sys2Proof.Machine
end

section
/-! PROOFS. The assembler (30_encoding.md R104, R105, log entry 16). -/

namespace Sys2Proof.Machine

/-! ### One statement -/

/-- A statement's expansion has one operand per operand of its instruction and is well formed. -/
theorem expand_spec {st : AsmStatement} {i : Instr} {vs : List AsmValue} (h : expand st = some (i, vs)) :
    vs.length = operandCount i ∧ i.wellFormed = true := by
  cases st <;> simp [expand] at h <;> obtain ⟨rfl, rfl⟩ := h <;> exact ⟨rfl, rfl⟩

theorem encodeWith_of_length {i : Instr} {ops : List Word} (h : ops.length = operandCount i) :
    encodeWith i ops = encode i :: ops := by
  rw [encodeWith, ← h, List.take_length]

/-- A statement that is not `dat` assembles exactly where every operand has a word, to the canonical word and the operands' words. -/
theorem assembleStatement_eq_some_iff {table : List (String × Addr)} {st : AsmStatement} {i : Instr}
    {vs : List AsmValue} (h : expand st = some (i, vs)) (ws : List Word) :
    assembleStatement table st = some ws ↔
      ∃ ops : List Word, vs.map (resolveValue table) = ops.map some ∧ ws = encode i :: ops := by
  have hwords : ∀ ops : List Word, vs.map (resolveValue table) = ops.map some → encodeWith i ops = encode i :: ops := by
    intro ops hops
    have hlen : vs.length = ops.length := by simpa using congrArg List.length hops
    exact encodeWith_of_length (hlen.symm.trans (expand_spec h).1)
  simp only [assembleStatement, h, Option.map_eq_some_iff, resolveAll_eq_some]
  refine exists_congr fun ops => and_congr_right fun hops => ?_
  rw [hwords ops hops, eq_comm]

theorem assembleStatement_length {table : List (String × Addr)} {st : AsmStatement} {ws : List Word}
    (h : assembleStatement table st = some ws) : ws.length = sizeOfStatement st := by
  unfold sizeOfStatement
  cases hexp : expand st with
  | none =>
    obtain rfl : dataWords st = ws := by simpa [assembleStatement, hexp] using h
    rfl
  | some p =>
    obtain ⟨i, vs⟩ := p
    obtain ⟨ops, hops, rfl⟩ := (assembleStatement_eq_some_iff hexp ws).mp h
    have hlen : vs.length = ops.length := by simpa using congrArg List.length hops
    simp [lengthOf, ← hlen, (expand_spec hexp).1, Nat.add_comm]

theorem assemblesAs_of_expand {st : AsmStatement} {i : Instr} {vs : List AsmValue} (h : expand st = some (i, vs)) :
    AssemblesAs st (textOfStatement st) i vs := by
  have hwf := (expand_spec h).2
  refine ⟨rfl, h, hwf, fun table ws => ⟨assembleStatement_eq_some_iff h ws, fun hws => ⟨?length, ?decodes⟩⟩⟩
  case length => simpa [sizeOfStatement, h] using assembleStatement_length hws
  case decodes =>
    obtain ⟨ops, -, rfl⟩ := (assembleStatement_eq_some_iff h ws).mp hws
    simp [decodeWords, decode_encode, canonical_of_wellFormed hwf, Except.toOption]

/-! ### Programs and labels -/

/-- How many words the lines fill. -/
def sizeOfLines (ls : List AsmLine) : Nat := (ls.map fun l => sizeOfStatement l.statement).sum

theorem sizeOfLines_cons (l : AsmLine) (ls : List AsmLine) :
    sizeOfLines (l :: ls) = sizeOfStatement l.statement + sizeOfLines ls := rfl

theorem assembleLines_cons_eq_some {table : List (String × Addr)} {l : AsmLine} {ls : List AsmLine} {ws : List Word}
    (h : assembleLines table (l :: ls) = some ws) :
    ∃ here after, assembleStatement table l.statement = some here ∧ assembleLines table ls = some after ∧
      ws = here ++ after := by
  unfold assembleLines at h
  split at h
  · next here after hhere hafter => exact ⟨here, after, hhere, hafter, by simpa using h.symm⟩
  · cases h

/-- Where lines assemble, those before a place do, to as many words as they fill, and those from it on do. -/
theorem assembleLines_append_eq_some {table : List (String × Addr)} {pre post : List AsmLine} {ws : List Word}
    (h : assembleLines table (pre ++ post) = some ws) :
    ∃ before rest, assembleLines table pre = some before ∧ before.length = sizeOfLines pre ∧
      assembleLines table post = some rest ∧ ws = before ++ rest := by
  induction pre generalizing ws with
  | nil => exact ⟨[], ws, rfl, rfl, h, rfl⟩
  | cons l pre ih =>
    obtain ⟨here, after, hhere, hafter, rfl⟩ := assembleLines_cons_eq_some h
    obtain ⟨before, rest, hbefore, hlen, hrest, rfl⟩ := ih hafter
    refine ⟨here ++ before, rest, by simp [assembleLines, hhere, hbefore], ?_, hrest, by simp⟩
    rw [List.length_append, assembleStatement_length hhere, hlen, sizeOfLines_cons]

/-- The first definition of a label gives the number of words before its line (log entry 16). -/
theorem lookup_labelTable_append {n : String} {pre post : List AsmLine} {st : AsmStatement}
    (hpre : ∀ l ∈ pre, l.label ≠ some n) (a : Addr) :
    (labelTable a (pre ++ ⟨some n, st⟩ :: post)).lookup n = some (a + sizeOfLines pre) := by
  induction pre generalizing a with
  | nil => simp [labelTable, sizeOfLines]
  | cons l pre ih =>
    have hrest := ih (fun l hl => hpre l (List.mem_cons_of_mem _ hl)) (a + sizeOfStatement l.statement)
    rw [sizeOfLines_cons, ← Nat.add_assoc]
    cases hl : l.label with
    | none => simpa [labelTable, hl] using hrest
    | some m =>
      have hne : n ≠ m := fun e => hpre l (by simp) (by rw [hl, e])
      simpa [labelTable, hl, List.lookup_cons, beq_eq_false_iff_ne.mpr hne] using hrest

/-- Settles O8: every statement assembles as its expansion, and the label table's addresses are counts of words because each
statement assembles to as many words as it fills. -/
theorem assembledStatementsDecode : Obligations.AssembledStatementsDecode := by
  refine ⟨fun a b d => ?statements, fun table vs => ⟨rfl, fun _ => rfl⟩, fun v => ⟨rfl, rfl⟩, ?label⟩
  case statements =>
    refine ⟨?add, ?mul, ?inp, ?out, ?jt, ?jf, ?lt, ?eq, ?hlt, ?jmp, ?mov⟩
    all_goals exact assemblesAs_of_expand rfl
  case label =>
    intro pre post n st ws hpre h
    obtain ⟨before, rest, hbefore, hlen, hrest, rfl⟩ := assembleLines_append_eq_some h
    obtain ⟨here, after, hhere, -, rfl⟩ := assembleLines_cons_eq_some hrest
    refine ⟨before, here, after, by simp, hbefore, hhere, ?_⟩
    rw [resolveValue, lookup_labelTable_append hpre, hlen, Nat.zero_add, Option.map_some]

end Sys2Proof.Machine
end

section
/-! PROOFS. Add, Multiply, LessThan and Equals: the sum and the product, overflow, the order of faults and the frame
(41_arithmetic.md R150 to R156, 60_exceptions.md R208). -/

namespace Sys2Proof.Machine

/-! ### Results in and out of range (R154) -/

theorem arithResult_of_inRange {c : Config} {a b : Word} {r : Int} (h1 : -2 ^ 63 ≤ r) (h2 : r ≤ 2 ^ 63 - 1) :
    arithResult c a b r = .ok (wordOf r) :=
  (arithResult_ok_iff ..).mpr (.inl ⟨(inRange_iff r).mpr ⟨h1, h2⟩, rfl⟩)

theorem inRange_eq_false {r : Int} (h : r < -2 ^ 63 ∨ 2 ^ 63 - 1 < r) : inRange r = false := by
  rw [← Bool.not_eq_true, inRange_iff]
  omega

theorem wordOf_toInt_of_bounds {r : Int} (h1 : -2 ^ 63 ≤ r) (h2 : r ≤ 2 ^ 63 - 1) : (wordOf r).toInt = r :=
  wordOf_toInt r ((inRange_iff r).mpr ⟨h1, h2⟩)

/-- Where nothing overflows, or the policy is Wrap, the computation answers a word. -/
theorem arithResult_isOk {c : Config} {a b : Word} {r : Int}
    (h : c.overflowPolicy = .wrap ∨ (-2 ^ 63 ≤ r ∧ r ≤ 2 ^ 63 - 1)) : ∃ v, arithResult c a b r = .ok v := by
  cases hr : arithResult c a b r with
  | ok v => exact ⟨v, rfl⟩
  | error f =>
    obtain ⟨hout, hpol, -⟩ := (arithResult_error_iff c a b r f).mp hr
    obtain hwrap | hin := h
    · simp [hpol] at hwrap
    · simp [(inRange_iff r).mpr hin] at hout

/-- Settles O16: a sum in range is the value of its word, which the shared shape writes. -/
theorem addWritesTheSum : Obligations.AddWritesTheSum := by
  intro m1 m2 m3 s a b d ha hb hd hok h1 h2
  exact ⟨wordOf (a.toInt + b.toInt), wordOf_toInt_of_bounds h1 h2,
    exec_threeOperand_completes rfl ha hb hd (arithResult_of_inRange h1 h2) hok⟩

/-- Settles O17: a product in range is the value of its word, which the shared shape writes. -/
theorem multiplyWritesTheProduct : Obligations.MultiplyWritesTheProduct := by
  intro m1 m2 m3 s a b d ha hb hd hok h1 h2
  exact ⟨wordOf (a.toInt * b.toInt), wordOf_toInt_of_bounds h1 h2,
    exec_threeOperand_completes rfl ha hb hd (arithResult_of_inRange h1 h2) hok⟩

/-! ### Faults in the order of R208 -/

section
variable {g : Config → Word → Word → Except FaultKind Word} {i : Instr} {m1 m2 : Mode} {s : State} {a b r : Word} {d : Addr}
  {f : FaultKind}

theorem exec_threeOperand_faults_first (heff : effectOf i s = threeOperand g m1 m2 s) (ha : SourceFaults s m1 1 f) :
    exec i s = .next { s with fault := some (f, s.ip) } :=
  exec_of_effectOf_error <| heff.trans <| (threeOperand_error_iff ..).mpr <| .inl ((src_error_iff ..).mpr ha)

theorem exec_threeOperand_faults_second (heff : effectOf i s = threeOperand g m1 m2 s) (ha : SourceReads s m1 1 a)
    (hb : SourceFaults s m2 2 f) : exec i s = .next { s with fault := some (f, s.ip) } :=
  exec_of_effectOf_error <| heff.trans <| (threeOperand_error_iff ..).mpr <|
    .inr ⟨a, (src_ok_iff ..).mpr ha, .inl ((src_error_iff ..).mpr hb)⟩

theorem exec_threeOperand_faults_destination (heff : effectOf i s = threeOperand g m1 m2 s) (ha : SourceReads s m1 1 a)
    (hb : SourceReads s m2 2 b) (hd : DestFaults s 3 f) : exec i s = .next { s with fault := some (f, s.ip) } :=
  exec_of_effectOf_error <| heff.trans <| (threeOperand_error_iff ..).mpr <|
    .inr ⟨a, (src_ok_iff ..).mpr ha, .inr ⟨b, (src_ok_iff ..).mpr hb, .inl ((dst_error_iff ..).mpr hd)⟩⟩

theorem exec_threeOperand_faults_compute (heff : effectOf i s = threeOperand g m1 m2 s) (ha : SourceReads s m1 1 a)
    (hb : SourceReads s m2 2 b) (hd : DestReads s 3 d) (hg : g s.cfg a b = .error f) :
    exec i s = .next { s with fault := some (f, s.ip) } :=
  exec_of_effectOf_error <| heff.trans <| (threeOperand_error_iff ..).mpr <|
    .inr ⟨a, (src_ok_iff ..).mpr ha, .inr ⟨b, (src_ok_iff ..).mpr hb, .inr ⟨d, (dst_ok_iff ..).mpr hd, .inl hg⟩⟩⟩

theorem exec_threeOperand_faults_write (heff : effectOf i s = threeOperand g m1 m2 s) (ha : SourceReads s m1 1 a)
    (hb : SourceReads s m2 2 b) (hd : DestReads s 3 d) (hg : g s.cfg a b = .ok r) (hok : addrOk s d = false) :
    exec i s = .next { s with fault := some (.addressLimit d, s.ip) } :=
  exec_of_effectOf_error <| heff.trans <| (threeOperand_error_iff ..).mpr <|
    .inr ⟨a, (src_ok_iff ..).mpr ha, .inr ⟨b, (src_ok_iff ..).mpr hb,
      .inr ⟨d, (dst_ok_iff ..).mpr hd, .inr ⟨r, hg, hok, rfl⟩⟩⟩⟩

end

/-- Settles O20: the four instructions share the shape whose faults come in this order. -/
theorem threeOperandFaultsComeInOrder : Obligations.ThreeOperandFaultsComeInOrder := by
  intro m1 m2 m3 s i hi
  obtain ⟨-, g, hg⟩ := effectOf_threeOperandInstrs hi
  exact ⟨fun f ha => exec_threeOperand_faults_first (hg s) ha,
    fun a f ha hb => exec_threeOperand_faults_second (hg s) ha hb,
    fun a b f ha hb hd => exec_threeOperand_faults_destination (hg s) ha hb hd⟩

/-- Settles O21: the write's limit is checked once the computation has answered, which a comparison always does. -/
theorem writesAtTheLimitFault : Obligations.WritesAtTheLimitFault := by
  intro m1 m2 m3 s a b d ha hb hd hok
  refine ⟨fun i hi => ?comparisons, fun h => ?add, fun h => ?multiply⟩
  case comparisons =>
    simp only [List.mem_cons, List.not_mem_nil, or_false] at hi
    obtain rfl | rfl := hi
    · exact exec_threeOperand_faults_write (g := ltResult) rfl ha hb hd rfl hok
    · exact exec_threeOperand_faults_write (g := eqResult) rfl ha hb hd rfl hok
  case add =>
    obtain ⟨v, hv⟩ := arithResult_isOk (a := a) (b := b) h
    exact exec_threeOperand_faults_write rfl ha hb hd hv hok
  case multiply =>
    obtain ⟨v, hv⟩ := arithResult_isOk (a := a) (b := b) h
    exact exec_threeOperand_faults_write rfl ha hb hd hv hok

/-! ### Overflow (R154, decision D2) -/

/-- What an instruction with an arithmetic result out of range does under either policy. -/
theorem exec_overflows {g : Config → Word → Word → Except FaultKind Word} {i : Instr} {m1 m2 : Mode} {s : State} {a b : Word}
    {d : Addr} {r : Int} (heff : effectOf i s = threeOperand g m1 m2 s) (hg : g s.cfg a b = arithResult s.cfg a b r)
    (ha : SourceReads s m1 1 a) (hb : SourceReads s m2 2 b) (hd : DestReads s 3 d) (hr : r < -2 ^ 63 ∨ 2 ^ 63 - 1 < r) :
    (s.cfg.overflowPolicy = .fault → exec i s = .next { s with fault := some (.arithmeticOverflow a b, s.ip) }) ∧
      (s.cfg.overflowPolicy = .wrap → addrOk s d = true →
        exec i s = .next { s with mem := s.mem.write d (wordOf (wrap64 r)), ip := s.ip + 4 }) := by
  have hout := inRange_eq_false hr
  refine ⟨fun hpol => ?fault, fun hpol hok => ?wrap⟩
  case fault =>
    exact exec_threeOperand_faults_compute heff ha hb hd (hg.trans ((arithResult_error_iff ..).mpr ⟨hout, hpol, rfl⟩))
  case wrap =>
    exact exec_threeOperand_completes heff ha hb hd (hg.trans ((arithResult_ok_iff ..).mpr (.inr ⟨hout, hpol, rfl⟩))) hok

/-- Settles O18: a wrapped result is in range, hence the value of the word written. -/
theorem overflowFollowsThePolicy : Obligations.OverflowFollowsThePolicy := by
  intro m1 m2 m3 s a b d i r ha hb hd hi hr
  have hshape : ∃ g, effectOf i s = threeOperand g m1 m2 s ∧ g s.cfg a b = arithResult s.cfg a b r := by
    obtain ⟨rfl, rfl⟩ | ⟨rfl, rfl⟩ := hi
    · exact ⟨addResult, rfl, rfl⟩
    · exact ⟨mulResult, rfl, rfl⟩
  obtain ⟨g, heff, hg⟩ := hshape
  obtain ⟨hfault, hwrap⟩ := exec_overflows heff hg ha hb hd hr
  exact ⟨hfault, fun hpol hok => ⟨_, wordOf_toInt _ (inRange_wrap64 r), hwrap hpol hok⟩⟩

/-! ### The frame -/

/-- Settles O22: a three-operand instruction writes at its destination and advances, or records a fault. -/
theorem threeOperandFrame : Obligations.ThreeOperandFrame := by
  intro m1 m2 m3 s t i hi h
  obtain ⟨-, g, hg⟩ := effectOf_threeOperandInstrs hi
  obtain hok | ⟨k, -, rfl⟩ := exec_next h
  case inr => exact ⟨rfl, rfl, rfl, rfl, rfl, rfl, rfl, fun _ _ _ _ => rfl, fun _ _ _ => rfl⟩
  obtain ⟨-, -, d, r, -, -, hd, -, -, rfl⟩ := (threeOperand_ok_iff g m1 m2 s t).mp (hg s ▸ hok)
  refine ⟨rfl, rfl, rfl, rfl, rfl, rfl, rfl, fun d' hd' b hb => ?elsewhere, fun f hf => ?faulted⟩
  case elsewhere =>
    obtain rfl := Except.ok.inj (hd.symm.trans hd')
    exact Memory.read_write_other _ _ _ _ hb
  case faulted => simp [hd] at hf

end Sys2Proof.Machine
end

section
/-! PROOFS. Input, Output, the jumps and Halt: what each does, the order of its faults and its frame (42_io.md, 43_control.md,
60_exceptions.md R208). -/

namespace Sys2Proof.Machine

/-! ### Input (42_io.md R170) -/

/-- Settles O23: Input completes by writing and consuming the entry at the cursor. -/
theorem inputWritesTheOldestEntry : Obligations.InputWritesTheOldestEntry := by
  intro m1 m2 m3 s d v hd hok hv
  exact exec_of_effectOf_ok ((inputEffect_ok_iff ..).mpr ⟨d, (dst_ok_iff ..).mpr hd, .inr ⟨v, hv, hok, rfl⟩⟩)

/-- Settles O24: a cursor at the end of the queue finds no entry, so Input suspends. -/
theorem inputBlocksOnAnEmptyQueue : Obligations.InputBlocksOnAnEmptyQueue :=
  fun _ _ _ _ _ hd hq => exec_input_suspends hd hq.ge

/-- Settles O25: the destination is resolved first, and the write is tried only with a value. -/
theorem inputFaultsBeforeItBlocks : Obligations.InputFaultsBeforeItBlocks := by
  intro m1 m2 m3 s
  refine ⟨fun f hf => ?destination, fun d v hd hv hok => ?write⟩
  case destination => exact exec_of_effectOf_error ((inputEffect_error_iff ..).mpr (.inl ((dst_error_iff ..).mpr hf)))
  case write =>
    exact exec_of_effectOf_error
      ((inputEffect_error_iff ..).mpr (.inr ⟨d, (dst_ok_iff ..).mpr hd, v, hv, hok, rfl⟩))

/-- Settles O26: Input suspends, or writes at its destination and consumes, or records a fault. -/
theorem inputFrame : Obligations.InputFrame := by
  intro m1 m2 m3 s t h
  obtain hok | ⟨k, -, rfl⟩ := exec_next h
  case inr =>
    exact ⟨rfl, rfl, rfl, rfl, rfl, .inl rfl, .inl rfl, fun _ _ _ _ => rfl, fun _ _ _ => rfl, fun _ _ => rfl⟩
  obtain ⟨d, hd, ⟨-, rfl⟩ | ⟨v, hv, -, rfl⟩⟩ := (inputEffect_ok_iff s t).mp hok
  · exact ⟨rfl, rfl, rfl, rfl, rfl, .inl rfl, .inr rfl, fun _ _ _ _ => rfl, fun _ _ _ => rfl, fun _ _ => rfl⟩
  · refine ⟨rfl, rfl, rfl, rfl, rfl, .inr rfl, .inl rfl, fun d' hd' b hb => ?elsewhere, fun f hf => ?faulted,
      fun hnone => ?blocked⟩
    case elsewhere =>
      obtain rfl := Except.ok.inj (hd.symm.trans hd')
      exact Memory.read_write_other _ _ _ _ hb
    case faulted => simp [hd] at hf
    case blocked => simp [hv] at hnone

/-! ### Output (42_io.md R171) -/

/-- Settles O27: Output completes where QUEUE_LIMIT leaves room. -/
theorem outputAppendsTheValue : Obligations.OutputAppendsTheValue := by
  intro m1 m2 m3 s a ha hroom
  exact exec_of_effectOf_ok
    ((outputEffect_ok_iff ..).mpr ⟨a, (src_ok_iff ..).mpr ha, (queueHasRoom_iff ..).mpr hroom, rfl⟩)

theorem queueHasRoom_eq_false {s : State} {n k : Nat} (hk : s.cfg.queueLimit = some k) (hn : k ≤ n) :
    queueHasRoom s n = false := by
  rw [← Bool.not_eq_true, queueHasRoom_iff]
  exact fun h => (h k hk).not_ge hn

/-- Settles O28: the source is resolved first, and then a full queue faults. -/
theorem outputFaultsComeInOrder : Obligations.OutputFaultsComeInOrder := by
  intro m1 m2 m3 s
  refine ⟨fun f hf => ?source, fun a n ha hlim hfull => ?full⟩
  case source => exact exec_of_effectOf_error ((outputEffect_error_iff ..).mpr (.inl ((src_error_iff ..).mpr hf)))
  case full =>
    exact exec_of_effectOf_error ((outputEffect_error_iff ..).mpr
      (.inr ⟨⟨a, (src_ok_iff ..).mpr ha⟩, queueHasRoom_eq_false hlim hfull, rfl⟩))

/-! ### Jumps (43_control.md R185, R186, R188) -/

section
variable {g : Word → Bool} {i : Instr} {m1 m2 : Mode} {s : State} {c w : Word} {f : FaultKind}

theorem exec_jumpWhen_taken (heff : effectOf i s = jumpWhen g m1 m2 s) (hc : SourceReads s m1 1 c)
    (hw : SourceReads s m2 2 w) (hg : g c = true) (h0 : 0 ≤ w.toInt) : exec i s = .next { s with ip := w.toNat } :=
  exec_of_effectOf_ok <| heff.trans <| (jumpWhen_ok_iff ..).mpr
    ⟨c, w, (src_ok_iff ..).mpr hc, (src_ok_iff ..).mpr hw, .inl ⟨hg, w.toNat, (toAddr_ok_iff ..).mpr ⟨h0, rfl⟩, rfl⟩⟩

theorem exec_jumpWhen_notTaken (heff : effectOf i s = jumpWhen g m1 m2 s) (hc : SourceReads s m1 1 c)
    (hw : SourceReads s m2 2 w) (hg : g c = false) : exec i s = .next { s with ip := s.ip + 3 } :=
  exec_of_effectOf_ok <| heff.trans <| (jumpWhen_ok_iff ..).mpr
    ⟨c, w, (src_ok_iff ..).mpr hc, (src_ok_iff ..).mpr hw, .inr ⟨hg, rfl⟩⟩

theorem exec_jumpWhen_faults_first (heff : effectOf i s = jumpWhen g m1 m2 s) (hc : SourceFaults s m1 1 f) :
    exec i s = .next { s with fault := some (f, s.ip) } :=
  exec_of_effectOf_error <| heff.trans <| (jumpWhen_error_iff ..).mpr <| .inl ((src_error_iff ..).mpr hc)

theorem exec_jumpWhen_faults_second (heff : effectOf i s = jumpWhen g m1 m2 s) (hc : SourceReads s m1 1 c)
    (hw : SourceFaults s m2 2 f) : exec i s = .next { s with fault := some (f, s.ip) } :=
  exec_of_effectOf_error <| heff.trans <| (jumpWhen_error_iff ..).mpr <|
    .inr ⟨c, (src_ok_iff ..).mpr hc, .inl ((src_error_iff ..).mpr hw)⟩

theorem exec_jumpWhen_faults_target (heff : effectOf i s = jumpWhen g m1 m2 s) (hc : SourceReads s m1 1 c)
    (hw : SourceReads s m2 2 w) (hg : g c = true) (h0 : w.toInt < 0) :
    exec i s = .next { s with fault := some (.negativeAddress w, s.ip) } :=
  exec_of_effectOf_error <| heff.trans <| (jumpWhen_error_iff ..).mpr <|
    .inr ⟨c, (src_ok_iff ..).mpr hc, .inr ⟨w, (src_ok_iff ..).mpr hw, hg, (toAddr_error_iff ..).mpr ⟨h0, rfl⟩⟩⟩

end

theorem not_wordIsTrue_eq_true_iff (c : Word) : (!wordIsTrue c) = true ↔ c.toInt = 0 := by
  rw [Bool.not_eq_true', wordIsTrue_eq_false_iff]

theorem not_wordIsTrue_eq_false_iff (c : Word) : (!wordIsTrue c) = false ↔ c.toInt ≠ 0 := by
  rw [Bool.not_eq_false', wordIsTrue_iff]

/-- Settles O29: JumpIfTrue is taken exactly on a nonzero condition. -/
theorem jumpIfTrueCompletes : Obligations.JumpIfTrueCompletes := by
  intro m1 m2 m3 s c g hc hg
  exact ⟨fun h h0 => exec_jumpWhen_taken rfl hc hg ((wordIsTrue_iff c).mpr h) h0,
    fun h => exec_jumpWhen_notTaken rfl hc hg ((wordIsTrue_eq_false_iff c).mpr h)⟩

/-- Settles O30: JumpIfFalse is taken exactly on a zero condition. -/
theorem jumpIfFalseCompletes : Obligations.JumpIfFalseCompletes := by
  intro m1 m2 m3 s c g hc hg
  exact ⟨fun h h0 => exec_jumpWhen_taken rfl hc hg ((not_wordIsTrue_eq_true_iff c).mpr h) h0,
    fun h => exec_jumpWhen_notTaken rfl hc hg ((not_wordIsTrue_eq_false_iff c).mpr h)⟩

/-- The two jumps differ only in when they are taken. -/
theorem effectOf_jumps {m1 m2 m3 : Mode} {i : Instr} (hi : i ∈ [Instr.jumpIfTrue m1 m2 m3, Instr.jumpIfFalse m1 m2 m3]) :
    ∃ g, ∀ s, effectOf i s = jumpWhen g m1 m2 s := by
  simp only [List.mem_cons, List.not_mem_nil, or_false] at hi
  obtain rfl | rfl := hi <;> exact ⟨_, fun _ => rfl⟩

/-- Settles O31: both jumps share the shape whose faults come in this order, the target's only when taken. -/
theorem jumpFaultsComeInOrder : Obligations.JumpFaultsComeInOrder := by
  intro m1 m2 m3 s
  refine ⟨fun i hi => ?operands, fun c g hc hg h0 => ?target⟩
  case operands =>
    obtain ⟨g, hg⟩ := effectOf_jumps hi
    exact ⟨fun f hf => exec_jumpWhen_faults_first (hg s) hf,
      fun c f hc hf => exec_jumpWhen_faults_second (hg s) hc hf⟩
  case target =>
    exact ⟨fun h => exec_jumpWhen_faults_target rfl hc hg ((wordIsTrue_iff c).mpr h) h0,
      fun h => exec_jumpWhen_faults_target rfl hc hg ((not_wordIsTrue_eq_true_iff c).mpr h) h0⟩

/-! ### Frames of the instructions that write no memory -/

theorem jumpWhen_frame {g : Word → Bool} {i : Instr} {m1 m2 : Mode} {s t : State}
    (heff : effectOf i s = jumpWhen g m1 m2 s) (h : exec i s = .next t) : t = { s with ip := t.ip, fault := t.fault } := by
  obtain hok | ⟨k, -, rfl⟩ := exec_next h
  · obtain ⟨-, -, -, -, ⟨-, a, -, rfl⟩ | ⟨-, rfl⟩⟩ := (jumpWhen_ok_iff g m1 m2 s t).mp (heff ▸ hok) <;> rfl
  · rfl

theorem output_frame {m1 m2 m3 : Mode} {s t : State} (h : exec (.output m1 m2 m3) s = .next t) :
    t = { s with outQ := t.outQ, ip := t.ip, fault := t.fault } ∧
      (t.outQ = s.outQ ∨ ∃ a, src s m1 1 = .ok a ∧ t.outQ = s.outQ ++ [a]) := by
  obtain hok | ⟨k, -, rfl⟩ := exec_next h
  · obtain ⟨a, ha, -, rfl⟩ := (outputEffect_ok_iff m1 s t).mp hok
    exact ⟨rfl, .inr ⟨a, ha, rfl⟩⟩
  · exact ⟨rfl, .inl rfl⟩

theorem exec_halt (m1 m2 m3 : Mode) (s : State) : exec (.halt m1 m2 m3) s = .next (s.withStatus .halted) := rfl

/-- Settles O33: each of the four completes in its one way or records a fault. -/
theorem nonStoringFrame : Obligations.NonStoringFrame := by
  intro m1 m2 m3 s t
  refine ⟨output_frame, jumpWhen_frame rfl, jumpWhen_frame rfl, fun h => ?halt⟩
  case halt =>
    obtain rfl := Host.Outcome.next.inj ((exec_halt ..).symm.trans h)
    rfl

/-! ### Halt (43_control.md R190) -/

theorem decode_halt_of_opcode {w : Word} (h0 : 0 ≤ w.toInt) (hop : w.toNat % 100 = 99) :
    ∃ m1 m2 m3, decode w = .ok (.halt m1 m2 m3) :=
  ⟨_, _, _, (decode_ok_iff ..).mpr ⟨h0, by rw [hop]; rfl⟩⟩

theorem runCommand_of_halted {s : State} (hf : s.fault = none) (hh : s.status = .halted) (fuel : Nat) :
    runCommand fuel s = some (.next (raise .executeAfterHalt s)) := by
  simp [runCommand, hf, hh]

/-- Settles O32: opcode 99 names Halt for any mode digits, and a run finds the status Halt sets. -/
theorem haltCompletes : Obligations.HaltCompletes := by
  refine ⟨fun w h0 hop => decode_halt_of_opcode h0 hop, fun m1 m2 m3 s => ⟨exec_halt m1 m2 m3 s, fun hf fuel => ?run⟩⟩
  case run => exact runCommand_of_halted (s := s.withStatus .halted) hf rfl fuel

end Sys2Proof.Machine
end

section
/-! PROOFS. Memory accesses, memories that read alike, and the image construct loads (20_memory.md R60, R61, 10_state.md R33, R49). -/

namespace Sys2Proof.Machine

/-- Settles O34: the accesses check the limit alone, and a read after a write is the memory's law. -/
theorem writeThenRead : Obligations.WriteThenRead := by
  intro s a v
  refine ⟨fun hok => ⟨s.withMem (s.mem.write a v), ?writes, ?readsBack, fun b hb => ?elsewhere, rfl⟩, fun hlim => ?limit⟩
  case writes => exact (memWrite_ok_iff ..).mpr ⟨hok, rfl⟩
  case readsBack => exact (memRead_ok_iff ..).mpr ⟨hok, (Memory.read_write_self ..).symm⟩
  case elsewhere =>
    have haddr : addrOk (s.withMem (s.mem.write a v)) b = addrOk s b := rfl
    simp only [memRead, haddr, State.withMem_mem, Memory.read_write_other _ _ _ _ hb]
  case limit => exact ⟨(memWrite_error_iff ..).mpr ⟨hlim, rfl⟩, (memRead_error_iff ..).mpr ⟨hlim, rfl⟩⟩

/-! ### Canonical memories that read alike are equal (R33) -/

theorem Memory.read_of_lt {c : Cell} {m : Memory} (h : ∀ d ∈ m, c.1 < d.1) {a : Addr} (ha : a ≤ c.1) : m.read a = 0 :=
  Memory.read_of_absent m a fun d hd => (lt_of_le_of_lt ha (h d hd)).ne'

theorem Memory.read_cons_self (c : Cell) (m : Memory) : Memory.read (c :: m) c.1 = c.2 := by
  rw [Memory.read_cons, if_pos rfl]

/-- The least listed address is the least with a nonzero word, so it does not lie above that of a memory that reads alike. -/
theorem Memory.head_le {c d : Cell} {m n : Memory} (hc : Memory.wf (c :: m) = true) (hd : Memory.wf (d :: n) = true)
    (h : ∀ a, Memory.read (c :: m) a = Memory.read (d :: n) a) : d.1 ≤ c.1 := by
  obtain ⟨hc0, -, -⟩ := (Memory.wf_cons c m).mp hc
  obtain ⟨-, hlt, -⟩ := (Memory.wf_cons d n).mp hd
  by_contra! hlow
  have hread := h c.1
  rw [Memory.read_cons_self, Memory.read_cons, if_neg hlow.ne', Memory.read_of_lt hlt hlow.le] at hread
  exact hc0 hread

theorem Memory.eq_nil_of_read {m : Memory} (hm : m.wf = true) (h : ∀ a, m.read a = 0) : m = [] := by
  cases m with
  | nil => rfl
  | cons c m =>
    obtain ⟨hc0, -, -⟩ := (Memory.wf_cons c m).mp hm
    exact absurd ((Memory.read_cons_self c m).symm.trans (h c.1)) hc0

/-- Below the head's address, and at it, the rest of a canonical memory reads 0, and above it as the whole does. -/
theorem Memory.read_tail {c : Cell} {m : Memory} (h : Memory.wf (c :: m) = true) (a : Addr) :
    Memory.read m a = if a = c.1 then 0 else Memory.read (c :: m) a := by
  obtain ⟨-, hlt, -⟩ := (Memory.wf_cons c m).mp h
  by_cases ha : a = c.1
  · rw [if_pos ha, Memory.read_of_lt hlt ha.le]
  · rw [if_neg ha, Memory.read_cons, if_neg (Ne.symm ha)]

/-- Settles O35, by induction on both lists: the heads agree in address and word, and the rests read alike. -/
theorem equalReadsAreEqualMemories : Obligations.EqualReadsAreEqualMemories := by
  intro m
  induction m with
  | nil => exact fun n _ hn h => (Memory.eq_nil_of_read hn fun a => (h a).symm).symm
  | cons c m ih =>
    intro n hm hn h
    cases n with
    | nil => exact Memory.eq_nil_of_read hm h
    | cons d n =>
      have haddr : c.1 = d.1 := le_antisymm (Memory.head_le hn hm fun a => (h a).symm) (Memory.head_le hm hn h)
      have hword : c.2 = d.2 := by
        rw [← Memory.read_cons_self c m, ← Memory.read_cons_self d n, ← haddr, h]
      obtain ⟨-, -, hm'⟩ := (Memory.wf_cons c m).mp hm
      obtain ⟨-, -, hn'⟩ := (Memory.wf_cons d n).mp hn
      have hrest : m = n := ih n hm' hn' fun a => by rw [Memory.read_tail hm, Memory.read_tail hn, h, haddr]
      rw [Prod.ext haddr hword, hrest]

/-! ### The image (R49) -/

theorem Memory.read_ofImage_of_lt (vs : List Word) {a b : Addr} (h : b < a) : (Memory.ofImage a vs).read b = 0 :=
  Memory.read_of_absent _ _ fun c hc => (lt_of_lt_of_le h (Memory.ofImage_lower vs a c hc)).ne'

theorem Memory.read_ofImage_cons_self (v : Word) (vs : List Word) (a : Addr) :
    (Memory.ofImage a (v :: vs)).read a = v := by
  unfold Memory.ofImage
  split
  · next hv => rw [Memory.read_ofImage_of_lt vs (Nat.lt_succ_self a), hv]
  · exact Memory.read_cons_self (a, v) _

theorem Memory.read_ofImage_cons_of_lt (v : Word) (vs : List Word) {a b : Addr} (h : a < b) :
    (Memory.ofImage a (v :: vs)).read b = (Memory.ofImage (a + 1) vs).read b := by
  rw [Memory.ofImage]
  split
  · rfl
  · exact if_neg h.ne

theorem Memory.read_ofImage_add (vs : List Word) (a k : Nat) : (Memory.ofImage a vs).read (a + k) = vs.getD k 0 := by
  induction vs generalizing a k with
  | nil => rfl
  | cons v vs ih =>
    cases k with
    | zero => exact Memory.read_ofImage_cons_self v vs a
    | succ k =>
      rw [Memory.read_ofImage_cons_of_lt v vs (Nat.lt_add_of_pos_right k.succ_pos), List.getD_cons_succ, ← ih (a + 1) k, Nat.add_right_comm,
        Nat.add_assoc]

/-- A constructed instance reads as its image, and as 0 above it. -/
theorem read_construct (c : Config) (image : List Word) (a : Addr) : (construct c image).mem.read a = image.getD a 0 := by
  have h := Memory.read_ofImage_add image 0 a
  rwa [Nat.zero_add] at h

theorem image_construct (c : Config) (image : List Word) : (construct c image).image = image := by
  refine List.ext_getElem (by simp [State.image, construct]) fun n _ hn => ?_
  simp [State.image, read_construct, hn]

theorem ext_construct (c : Config) (image : List Word) (a : Addr) : (construct c image).ext a = none := by
  have hlen : (construct c image).imageLen = image.length := rfl
  unfold State.ext
  rw [hlen, read_construct]
  split
  · next h => rw [List.getD_eq_default _ _ h, if_pos rfl]
  · rfl

/-- Settles O44: the registers are those of reset, and the image is read back word by word. -/
theorem constructLoadsTheImage : Obligations.ConstructLoadsTheImage := fun c image =>
  ⟨rfl, rfl, rfl, rfl, rfl, rfl, rfl, rfl, rfl, read_construct c image, image_construct c image, ext_construct c image⟩

/-- Settles O45: the reset state is the construct of no words, and empty memory reads 0. -/
theorem resetIsConstructOfNothing : Obligations.ResetIsConstructOfNothing :=
  ⟨rfl, Memory.read_nil⟩

end Sys2Proof.Machine
end

section
/-! PROOFS. One step: what it runs, what it records, and what it does to the status and the queues (40_engine.md R120, R121,
60_exceptions.md R200 to R206, 10_state.md R38 to R43). -/

namespace Sys2Proof.Machine

/-! ### Fetch and decode (40_engine.md R120, 60_exceptions.md R208) -/

theorem step_of_running {s : State} (hf : s.fault = none) (hrun : s.status = .running) : step s = engineStep s := by
  simp [step, stepOnce, hf, hrun]

theorem step_of_waiting {s : State} (hf : s.fault = none) (hw : s.status = .waitingForInput) :
    step s = engineStep (s.withStatus .running) := by
  simp [step, stepOnce, hf, hw]

theorem step_of_halted {s : State} (hf : s.fault = none) (hh : s.status = .halted) :
    step s = .next (raise .executeAfterHalt s) := by
  simp [step, stepOnce, hf, hh]

/-- Settles O9: the fetch sees neither the status nor the record. -/
theorem stepRunsTheDecodedInstruction : Obligations.StepRunsTheDecodedInstruction := by
  intro s i hf hip hdec
  have hfetch : fetch s = .ok i := (fetch_ok_iff s i).mpr ⟨hip, hdec⟩
  refine ⟨fun hrun => step_of_fetch hf hrun hfetch, fun hw => ?waiting⟩
  case waiting =>
    rw [step_of_waiting hf hw]
    exact engineStep_of_fetch (s.withStatus .running) i hfetch

theorem decode_error_eq {w : Word} {e : DecodeError} (h : decode w = .error e) : e = .unknownOpcode w := by
  unfold decode at h
  split at h
  · exact (Except.error.inj h).symm
  · split at h
    · cases h
    · exact (Except.error.inj h).symm

theorem fetch_of_limit {s : State} (h : addrOk s s.ip = false) : fetch s = .error (.addressLimit s.ip) := by
  rw [fetch, (memRead_error_iff s s.ip _).mpr ⟨h, rfl⟩]

theorem fetch_of_decode_error {s : State} {e : DecodeError} (hip : addrOk s s.ip = true)
    (h : decode (s.mem.read s.ip) = .error e) : fetch s = .error (.unknownOpcode (s.mem.read s.ip)) := by
  obtain rfl := decode_error_eq h
  rw [fetch, (memRead_ok_iff s s.ip _).mpr ⟨hip, rfl⟩]
  simp only [h]

/-- Settles O10: a fault of the fetch or of the decode is the engine's whole step. -/
theorem fetchFaultsAreRecorded : Obligations.FetchFaultsAreRecorded := by
  intro s hf hrun
  rw [step_of_running hf hrun]
  exact ⟨fun hlim => engineStep_of_fetch_error s _ (fetch_of_limit hlim),
    fun e hip hdec => engineStep_of_fetch_error s _ (fetch_of_decode_error hip hdec)⟩

/-! ### Faults (60_exceptions.md R202 to R206) -/

/-- Settles O11: neither the step nor the run reaches the engine. -/
theorem executionAfterHaltRaises : Obligations.ExecutionAfterHaltRaises :=
  fun _ hf hh => ⟨step_of_halted hf hh, runCommand_of_halted hf hh⟩

/-- Settles O12: the step and every command look at the record first. -/
theorem faultedInstanceIsStopped : Obligations.FaultedInstanceIsStopped := by
  intro s k a hf
  refine ⟨by simp [step, stepOnce, hf], fun fuel c => ?command⟩
  case command => cases c <;> simp [hostCommand, submitInput, runCommand, unlessFaulted, hf]

/-- A completed instruction records no fault, so the engine's step that leaves one raised it. -/
theorem engineStep_raises {s t : State} (h : engineStep s = .next t) (hs : s.fault = none) (ht : t.fault ≠ none) :
    ∃ k, t = raise k s := by
  obtain ⟨i, -, -, hc⟩ | hraise := engineStep_completes_or_raises h
  · exact absurd (hc.fault_eq.trans hs) ht
  · exact hraise

/-- Settles O13: the fault was raised by the engine, in a waiting instance after the status was set to Running, or by a step after
Halt. -/
theorem faultsArePrecise : Obligations.FaultsArePrecise := by
  intro s t h ht
  obtain ⟨hf, ⟨hrun, hstep⟩ | ⟨hw, hstep⟩ | ⟨hh, rfl⟩⟩ := step_next s t h
  · obtain ⟨k, rfl⟩ := engineStep_raises hstep hf ht
    exact ⟨k, by rw [if_neg (by simp [hrun])]; rfl⟩
  · obtain ⟨k, rfl⟩ := engineStep_raises hstep hf ht
    exact ⟨k, by rw [if_pos hw]; rfl⟩
  · exact ⟨.executeAfterHalt, by rw [if_neg (by simp [hh])]; rfl⟩

/-- Settles O14: an instruction's final state and its fault are both next states. -/
theorem everyInstructionAnswersNext : Obligations.EveryInstructionAnswersNext := exec_isNext

/-! ### Halted (10_state.md R38, R40) -/

theorem takeOutput_status (s : State) : (takeOutput s).1.status = s.status := by
  obtain ⟨v, -, htake⟩ | ⟨-, htake⟩ := takeOutput_cases s <;> simp [htake]

/-- Settles O37: a step and a run raise ExecuteAfterHalt, which keeps the status, as the other commands do. -/
theorem haltedIsTerminal : Obligations.HaltedIsTerminal := by
  intro s hh
  refine ⟨fun t h => ?step, fun fuel c t r h => ?command⟩
  case step =>
    obtain ⟨hf, -⟩ := step_next s t h
    obtain rfl := Host.Outcome.next.inj ((step_of_halted hf hh).symm.trans h)
    exact ⟨hh, by simp⟩
  case command =>
    obtain ⟨-, ⟨v, rfl, -, -, rfl⟩ | ⟨rfl, -, hrun⟩ | ⟨rfl, rfl, -⟩ | ⟨hc, -, rfl⟩⟩ := hostCommand_next fuel c s t r h
    · exact ⟨by simp [hh], by simp⟩
    · obtain ⟨-, ⟨-, rfl⟩ | ⟨hne, -⟩⟩ := runCommand_cases hrun
      · exact ⟨hh, by simp⟩
      · exact absurd hh hne
    · exact ⟨(takeOutput_status s).trans hh, by simp⟩
    · exact ⟨hh, fun hrun => absurd hrun hc⟩

theorem engineStep_halts {s t : State} (h : engineStep s = .next t) (hs : s.status ≠ .halted) (ht : t.status = .halted) :
    isHaltWord (s.mem.read s.ip) = true ∧ t = s.withStatus .halted := by
  obtain ⟨i, -, hdec, hc⟩ | ⟨k, rfl⟩ := engineStep_completes_or_raises h
  · obtain hkeep | ⟨m1, m2, m3, d, -, -, -, rfl⟩ | ⟨m1, m2, m3, rfl, rfl⟩ := hc.status_cases
    · exact absurd (hkeep.symm.trans ht) hs
    · simp at ht
    · exact ⟨by simp [isHaltWord, hdec], rfl⟩
  · exact absurd ht hs

/-- Settles O38: of the instructions only Halt sets the status Halted, and it changes nothing else. -/
theorem haltedOnlyByHalt : Obligations.HaltedOnlyByHalt := by
  intro s t h hs ht
  obtain rfl | hstep := step_next_running h
  · exact absurd ht hs
  · exact (engineStep_halts hstep (by simp) ht :)

/-! ### The input queue (42_io.md R172) -/

/-- Only an Input with an unread entry moves the cursor, and it writes that entry at its destination. -/
theorem Completes.inRd_cases {s t : State} {i : Instr} (h : Completes s i t) :
    t.inRd = s.inRd ∨
      (t.inRd = s.inRd + 1 ∧ (∃ m1 m2 m3, i = .input m1 m2 m3) ∧
        ∃ v d, s.inQ[s.inRd]? = some v ∧ DestReads s 1 d ∧ t.mem.read d = v) := by
  cases h with
  | writes | suspends | emits | jumps | halts => exact .inl rfl
  | consumes hd hv =>
    exact .inr ⟨rfl, ⟨_, _, _, rfl⟩, _, _, hv, (dst_ok_iff ..).mp hd, Memory.read_write_self _ _ _⟩

theorem engineStep_input {s t : State} (h : engineStep s = .next t) :
    t.inQ = s.inQ ∧
      (t.inRd = s.inRd ∨
        (t.inRd = s.inRd + 1 ∧ isInputWord (s.mem.read s.ip) = true ∧
          ∃ v d, s.inQ[s.inRd]? = some v ∧ DestReads s 1 d ∧ t.mem.read d = v)) := by
  obtain ⟨i, -, hdec, hc⟩ | ⟨k, rfl⟩ := engineStep_completes_or_raises h
  · refine ⟨hc.inQ_eq, hc.inRd_cases.imp_right ?_⟩
    rintro ⟨hrd, ⟨m1, m2, m3, rfl⟩, hentry⟩
    exact ⟨hrd, by simp [isInputWord, hdec], hentry⟩
  · exact ⟨rfl, .inl rfl⟩

/-- Settles O40: an Input consumes the entry at the cursor, and submit_input appends at the end. -/
theorem inputIsConsumedInOrder : Obligations.InputIsConsumedInOrder := by
  refine ⟨fun s t h => ?step, fun s t v h => ?submit⟩
  case step =>
    obtain rfl | hstep := step_next_running h
    · exact ⟨rfl, .inl rfl⟩
    · exact (engineStep_input hstep :)
  case submit =>
    obtain ⟨-, rfl⟩ := submitInput_next h
    exact ⟨rfl, rfl⟩

/-! ### The parameters (00_scope.md R7 to R9) -/

theorem runCommand_parameters_eq {n : Nat} {s t : State} (h : runCommand n s = some (.next t)) :
    t.cfg = s.cfg ∧ t.imageLen = s.imageLen := by
  obtain rfl | hloop := runCommand_next h
  · exact ⟨rfl, rfl⟩
  · refine runLoop_preserves (s := s.withStatus .running) (P := fun u => u.cfg = s.cfg ∧ u.imageLen = s.imageLen)
      (fun u v hu hstep => ?_) ⟨rfl, rfl⟩ hloop
    obtain ⟨hcfg, hlen⟩ := engineStep_parameters_eq hstep
    exact ⟨hcfg.trans hu.1, hlen.trans hu.2⟩

/-- Settles O43: no completed instruction, no fault and no command writes either field. -/
theorem parametersNeverChange : Obligations.ParametersNeverChange := by
  refine ⟨fun s t h => ?step, fun s t fuel c r h => ?command⟩
  case step =>
    obtain rfl | hstep := step_next_running h
    · exact ⟨rfl, rfl⟩
    · exact (engineStep_parameters_eq hstep :)
  case command =>
    obtain ⟨-, ⟨v, -, -, -, rfl⟩ | ⟨-, -, hrun⟩ | ⟨-, rfl, -⟩ | ⟨-, -, rfl⟩⟩ := hostCommand_next fuel c s t r h
    · exact ⟨rfl, rfl⟩
    · exact runCommand_parameters_eq hrun
    · obtain ⟨v, -, htake⟩ | ⟨-, htake⟩ := takeOutput_cases s <;> simp [htake]
    · exact ⟨rfl, rfl⟩

end Sys2Proof.Machine
end

section
/-! PROOFS. Runs (40_engine.md R122, R124, R132, R142), the host commands submit_input, mem_peek and take_output (R131, R135, R139),
and several instances (60_exceptions.md R225, R226). -/

namespace Sys2Proof.Machine

/-! ### Runs -/

/-- Settles O50: the fuel that suffices is the number of steps. -/
theorem loopIsAFiniteStepSequence : Obligations.LoopIsAFiniteStepSequence :=
  fun _ _ => ⟨fun ⟨_, h⟩ => loopEnds_of_runLoop h, LoopEnds.exists_runLoop⟩

theorem engineStep_unique {s t u : State} (ht : engineStep s = .next t) (hu : engineStep s = .next u) : t = u :=
  Host.Outcome.next.inj (ht.symm.trans hu)

/-- The step is a function and says itself whether the loop goes on, so the sequence is determined. -/
theorem LoopEnds.unique {s t u : State} (ht : LoopEnds s t) (hu : LoopEnds s u) : t = u := by
  induction ht with
  | last hstep hstop =>
    cases hu with
    | last hstep' _ => exact engineStep_unique hstep hstep'
    | more hstep' hgo _ =>
      obtain rfl := engineStep_unique hstep hstep'
      simp [hstop] at hgo
  | more hstep hgo _ ih =>
    cases hu with
    | last hstep' hstop =>
      obtain rfl := engineStep_unique hstep hstep'
      simp [hgo] at hstop
    | more hstep' _ hrest =>
      obtain rfl := engineStep_unique hstep hstep'
      exact ih hrest

/-- Settles O51: both runs are the one finite step sequence from the state, or both raise ExecuteAfterHalt. -/
theorem runIsDeterministic : Obligations.RunIsDeterministic := by
  rintro s t u ⟨n, hn⟩ ⟨k, hk⟩
  obtain ⟨-, ⟨hh, rfl⟩ | ⟨hne, ht⟩⟩ := runCommand_cases hn <;>
    obtain ⟨-, ⟨hh', rfl⟩ | ⟨hne', hu⟩⟩ := runCommand_cases hk
  · rfl
  · exact absurd hh hne'
  · exact absurd hh' hne
  · exact ht.unique hu

/-- A run ends with a step of a Running engine without a fault, after which the loop stops. -/
theorem LoopEnds.exists_last {s t : State} (h : LoopEnds s t) (hrun : s.status = .running) (hf : s.fault = none) :
    runContinues t = false ∧ ∃ u, u.status = .running ∧ u.fault = none ∧ engineStep u = .next t := by
  induction h with
  | last hstep hstop => exact ⟨hstop, _, hrun, hf, hstep⟩
  | more _ hgo _ ih =>
    obtain ⟨hrun', hf'⟩ := (runContinues_iff _).mp hgo
    exact ih hrun' hf'

/-- The step that ends a run raises, suspends or halts. -/
theorem engineStep_stops {u t : State} (h : engineStep u = .next t) (hrun : u.status = .running) (hf : u.fault = none)
    (hstop : runContinues t = false) :
    (t.status = .halted ∧ Safe t) ∨ (t.status = .waitingForInput ∧ Safe t) ∨
      (∃ k, t.fault = some (k, t.ip) ∧ t.status ≠ .waitingForInput) := by
  obtain ⟨i, -, -, hc⟩ | ⟨k, rfl⟩ := engineStep_completes_or_raises h
  · obtain hkeep | ⟨m1, m2, m3, d, -, -, -, rfl⟩ | ⟨m1, m2, m3, -, rfl⟩ := hc.status_cases
    · rw [(runContinues_iff t).mpr ⟨hkeep.trans hrun, hc.fault_eq.trans hf⟩] at hstop
      cases hstop
    · exact .inr (.inl ⟨rfl, hf⟩)
    · exact .inl ⟨rfl, hf⟩
  · exact .inr (.inr ⟨k, rfl, by simp [hrun]⟩)

/-- Settles O52: the last step of the run says how it ended; a run of a Halted instance raises. -/
theorem runEndsInOneOfThreeWays : Obligations.RunEndsInOneOfThreeWays := by
  rintro s t ⟨n, hn⟩
  obtain ⟨hf, ⟨hh, rfl⟩ | ⟨-, hends⟩⟩ := runCommand_cases hn
  · exact .inr (.inr ⟨_, rfl, by simp [hh]⟩)
  · obtain ⟨hstop, u, hrun, hu, hstep⟩ := hends.exists_last rfl hf
    exact engineStep_stops hstep hrun hu hstop

/-! ### Host commands -/

/-- Settles O46: submit_input looks at the record and at QUEUE_LIMIT, and then appends. -/
theorem submitInputAppends : Obligations.SubmitInputAppends := by
  intro fuel v s hf
  refine ⟨fun hroom => ?room, fun n hlim hfull => ?full⟩
  case room =>
    have hq : queueHasRoom s (unreadInput s) = true := (queueHasRoom_iff ..).mpr hroom
    rw [hostCommand, submitInput, unlessFaulted_of_none hf, if_pos hq]
    rfl
  case full =>
    have hq : queueHasRoom s (unreadInput s) = false := queueHasRoom_eq_false hlim hfull
    rw [hostCommand, submitInput, unlessFaulted_of_none hf, if_neg (by simp [hq])]

/-- Settles O49: mem_peek looks at the record and at the limit, and changes no state. -/
theorem memPeekReadsMemory : Obligations.MemPeekReadsMemory := by
  intro fuel s a hf
  rw [hostCommand, unlessFaulted_of_none hf, memPeek]
  exact ⟨fun hok => by rw [if_pos hok], fun hlim => by rw [if_neg (by simp [hlim])]⟩

theorem takeAll_succ {n : Nat} {s t : State} {v : Word} (h : takeOutput s = (t, some v)) :
    takeAll (n + 1) s = ((takeAll n t).1, v :: (takeAll n t).2) := by
  simp [takeAll, h]

/-- Each of `n` calls of take_output takes the entry at the cursor and moves it on by one. -/
theorem takeAll_eq (n : Nat) (s : State) (h : s.outRd + n = s.outQ.length) :
    takeAll n s = ({ s with outRd := s.outQ.length }, s.outQ.drop s.outRd) := by
  induction n generalizing s with
  | zero =>
    have hend : s.outRd = s.outQ.length := h
    simp [takeAll, ← hend]
  | succ n ih =>
    have hlt : s.outRd < s.outQ.length := by omega
    have htake : takeOutput s = (s.consumeOutput, some s.outQ[s.outRd]) := by simp [takeOutput, hlt]
    have hrest := ih s.consumeOutput (by simpa [Nat.add_assoc, Nat.add_comm 1] using h)
    rw [takeAll_succ htake, hrest, List.drop_eq_getElem_cons hlt]
    rfl

/-- Settles O41: the unread entries are as many as the calls that take them. -/
theorem outputIsDeliveredInOrder : Obligations.OutputIsDeliveredInOrder := by
  intro s h
  rw [takeAll_eq (unreadOutput s) s (Nat.add_sub_cancel' h)]
  exact ⟨rfl, rfl⟩

/-! ### Several instances -/

/-- A command that a network answers with a next state is the named instance's own answer, put in its place. -/
theorem networkCommand_next {net net' : Network} {fuel i : Nat} {c : HostCommand} {r : Reply}
    (h : networkCommand fuel i c net = some (.next (net', r))) :
    ∃ s t, net[i]? = some s ∧ hostCommand fuel c s = some (.next (t, r)) ∧ net' = net.set i t := by
  unfold networkCommand at h
  cases hs : net[i]? with
  | none => simp [hs] at h
  | some s =>
    rw [hs] at h
    simp only [andThen] at h
    split at h
    · cases h
    · next p hcmd =>
      obtain ⟨rfl, rfl⟩ : net.set i p.1 = net' ∧ p.2 = r := by simpa using h
      exact ⟨s, p.1, rfl, hcmd, rfl⟩
    · cases h
    · cases h

/-- Settles O58: one place of the list is set, to the state the instance answers alone. -/
theorem instancesShareNoState : Obligations.InstancesShareNoState := by
  intro net net' fuel i c r h
  obtain ⟨s, t, hs, hcmd, rfl⟩ := networkCommand_next h
  obtain ⟨hlt, -⟩ := List.getElem?_eq_some_iff.mp hs
  exact ⟨List.length_set, fun j hj => List.getElem?_set_ne hj.symm, s, t, hs, List.getElem?_set_self hlt, hcmd⟩

end Sys2Proof.Machine
end

section
/-! PROOFS. Consumed queue entries are hidden (10_state.md R47): replacing those of both queues commutes with every instruction, step,
run and command. The statements about one queue are the cases in which no entry of the other is replaced. -/

namespace Sys2Proof.Machine

/-- The state with `p` in place of the first `p.length` input entries, and `q` in place of the first `q.length` output entries. -/
def replaceEntries (p q : List Word) (s : State) : State :=
  { s with inQ := p ++ s.inQ.drop p.length, outQ := q ++ s.outQ.drop q.length }

/-- The entries to replace exist and are consumed. -/
structure ConsumedBy (s : State) (p q : List Word) : Prop where
  in_consumed : p.length ≤ s.inRd
  in_exists : p.length ≤ s.inQ.length
  out_consumed : q.length ≤ s.outRd
  out_exists : q.length ≤ s.outQ.length

theorem withConsumedInput_eq_replaceEntries (s : State) (p : List Word) :
    withConsumedInput s p p.length = replaceEntries p [] s := rfl

theorem withConsumedOutput_eq_replaceEntries (s : State) (p : List Word) :
    withConsumedOutput s p p.length = replaceEntries [] p s := rfl

/-- An outcome with its next state mapped. -/
def mapNext {α β : Type} (f : α → β) : Host.Outcome α Fault Refusal → Host.Outcome β Fault Refusal
  | .next a => .next (f a)
  | .fault e => .fault e
  | .refused r => .refused r

/-! ### The queues after the replacement -/

theorem getElem?_append_drop {α : Type} {l p : List α} {n : Nat} (h : p.length ≤ n) : (p ++ l.drop p.length)[n]? = l[n]? := by
  rw [List.getElem?_append_right h, List.getElem?_drop, Nat.add_sub_cancel' h]

theorem length_append_drop {α : Type} {l p : List α} (h : p.length ≤ l.length) : (p ++ l.drop p.length).length = l.length := by
  rw [List.length_append, List.length_drop, Nat.add_sub_cancel' h]

theorem append_drop_concat {α : Type} {l p : List α} (h : p.length ≤ l.length) (v : α) :
    p ++ (l ++ [v]).drop p.length = p ++ l.drop p.length ++ [v] := by
  rw [List.drop_append_of_le_length h, List.append_assoc]

section
variable {s t : State} {p q : List Word}

theorem ConsumedBy.inQ_getElem? (h : ConsumedBy s p q) : (replaceEntries p q s).inQ[s.inRd]? = s.inQ[s.inRd]? :=
  getElem?_append_drop h.in_consumed

theorem ConsumedBy.outQ_getElem? (h : ConsumedBy s p q) : (replaceEntries p q s).outQ[s.outRd]? = s.outQ[s.outRd]? :=
  getElem?_append_drop h.out_consumed

theorem ConsumedBy.outQ_length (h : ConsumedBy s p q) : (replaceEntries p q s).outQ.length = s.outQ.length :=
  length_append_drop h.out_exists

theorem ConsumedBy.unreadInput_eq (h : ConsumedBy s p q) : unreadInput (replaceEntries p q s) = unreadInput s :=
  congrArg (· - s.inRd) (length_append_drop h.in_exists)

theorem ConsumedBy.unreadOutput_eq (h : ConsumedBy s p q) : unreadOutput (replaceEntries p q s) = unreadOutput s :=
  congrArg (· - s.outRd) h.outQ_length

theorem ConsumedBy.emit_eq (h : ConsumedBy s p q) (v : Word) : (replaceEntries p q s).emit v = replaceEntries p q (s.emit v) := by
  simp [replaceEntries, State.emit, append_drop_concat h.out_exists]

theorem ConsumedBy.enqueueInput_eq (h : ConsumedBy s p q) (v : Word) :
    (replaceEntries p q s).enqueueInput v = replaceEntries p q (s.enqueueInput v) := by
  simp [replaceEntries, State.enqueueInput, append_drop_concat h.in_exists]

/-- Queues only grow and cursors only rise, so consumed entries stay consumed. -/
theorem ConsumedBy.completes {i : Instr} (h : ConsumedBy s p q) (hc : Completes s i t) : ConsumedBy t p q := by
  obtain ⟨h1, h2, h3, h4⟩ := h
  cases hc with
  | writes | suspends | jumps | halts => exact ⟨h1, h2, h3, h4⟩
  | consumes => exact ⟨Nat.le_succ_of_le h1, h2, h3, h4⟩
  | emits => exact ⟨h1, h2, h3, by simpa using Nat.le_succ_of_le h4⟩

theorem ConsumedBy.of_engineStep (h : ConsumedBy s p q) (hstep : engineStep s = .next t) : ConsumedBy t p q := by
  obtain ⟨i, -, -, hc⟩ | ⟨k, rfl⟩ := engineStep_completes_or_raises hstep
  · exact h.completes hc
  · exact ⟨h.in_consumed, h.in_exists, h.out_consumed, h.out_exists⟩

/-! ### Instructions -/

theorem threeOperand_replaceEntries (g : Config → Word → Word → Except FaultKind Word) (m1 m2 : Mode) (s : State)
    (p q : List Word) :
    threeOperand g m1 m2 (replaceEntries p q s) = (threeOperand g m1 m2 s).map (replaceEntries p q) := by
  cases h : threeOperand g m1 m2 s with
  | ok t =>
    obtain ⟨a, b, d, r, ha, hb, hd, hg, hok, rfl⟩ := (threeOperand_ok_iff g m1 m2 s t).mp h
    exact (threeOperand_ok_iff ..).mpr ⟨a, b, d, r, ha, hb, hd, hg, hok, rfl⟩
  | error f => exact (threeOperand_error_iff ..).mpr ((threeOperand_error_iff g m1 m2 s f).mp h :)

theorem jumpWhen_replaceEntries (g : Word → Bool) (m1 m2 : Mode) (s : State) (p q : List Word) :
    jumpWhen g m1 m2 (replaceEntries p q s) = (jumpWhen g m1 m2 s).map (replaceEntries p q) := by
  cases h : jumpWhen g m1 m2 s with
  | ok t =>
    obtain ⟨c, w, hc, hw, ⟨hg, a, ha, rfl⟩ | ⟨hg, rfl⟩⟩ := (jumpWhen_ok_iff g m1 m2 s t).mp h
    · exact (jumpWhen_ok_iff ..).mpr ⟨c, w, hc, hw, .inl ⟨hg, a, ha, rfl⟩⟩
    · exact (jumpWhen_ok_iff ..).mpr ⟨c, w, hc, hw, .inr ⟨hg, rfl⟩⟩
  | error f => exact (jumpWhen_error_iff ..).mpr ((jumpWhen_error_iff g m1 m2 s f).mp h :)

/-- Input reads the entry at the cursor, which is not replaced. -/
theorem ConsumedBy.inputEffect_eq (hs : ConsumedBy s p q) :
    inputEffect (replaceEntries p q s) = (inputEffect s).map (replaceEntries p q) := by
  have hq := hs.inQ_getElem?
  cases h : inputEffect s with
  | ok t =>
    obtain ⟨d, hd, ⟨hnone, rfl⟩ | ⟨v, hv, hok, rfl⟩⟩ := (inputEffect_ok_iff s t).mp h
    · exact (inputEffect_ok_iff ..).mpr ⟨d, hd, .inl ⟨hq.trans hnone, rfl⟩⟩
    · exact (inputEffect_ok_iff ..).mpr ⟨d, hd, .inr ⟨v, hq.trans hv, hok, rfl⟩⟩
  | error f =>
    obtain hd | ⟨d, hd, v, hv, hlim, rfl⟩ := (inputEffect_error_iff s f).mp h
    · exact (inputEffect_error_iff ..).mpr (.inl hd)
    · exact (inputEffect_error_iff ..).mpr (.inr ⟨d, hd, v, hq.trans hv, hlim, rfl⟩)

/-- Output counts the unread entries and appends behind them. -/
theorem ConsumedBy.outputEffect_eq (hs : ConsumedBy s p q) (m1 : Mode) :
    outputEffect m1 (replaceEntries p q s) = (outputEffect m1 s).map (replaceEntries p q) := by
  have hroom : queueHasRoom (replaceEntries p q s) (unreadOutput (replaceEntries p q s)) =
      queueHasRoom s (unreadOutput s) := congrArg (queueHasRoom s) hs.unreadOutput_eq
  cases h : outputEffect m1 s with
  | ok t =>
    obtain ⟨a, ha, hok, rfl⟩ := (outputEffect_ok_iff m1 s t).mp h
    exact (outputEffect_ok_iff ..).mpr ⟨a, ha, hroom.trans hok, congrArg (State.advance · 2) (hs.emit_eq a).symm⟩
  | error f =>
    obtain ha | ⟨ha, hfull, rfl⟩ := (outputEffect_error_iff m1 s f).mp h
    · exact (outputEffect_error_iff ..).mpr (.inl ha)
    · exact (outputEffect_error_iff ..).mpr (.inr ⟨ha, hroom.trans hfull, rfl⟩)

theorem ConsumedBy.effectOf_eq (hs : ConsumedBy s p q) (i : Instr) :
    effectOf i (replaceEntries p q s) = (effectOf i s).map (replaceEntries p q) := by
  cases i with
  | add | multiply | lessThan | equals => exact threeOperand_replaceEntries ..
  | input => exact hs.inputEffect_eq
  | output m1 => exact hs.outputEffect_eq m1
  | jumpIfTrue | jumpIfFalse => exact jumpWhen_replaceEntries ..
  | halt => rfl

theorem settle_replaceEntries (s : State) (p q : List Word) (r : Except FaultKind State) :
    settle (replaceEntries p q s) (r.map (replaceEntries p q)) = mapNext (replaceEntries p q) (settle s r) := by
  cases r <;> rfl

theorem ConsumedBy.exec_eq (hs : ConsumedBy s p q) (i : Instr) :
    exec i (replaceEntries p q s) = mapNext (replaceEntries p q) (exec i s) := by
  rw [exec_eq_settle, exec_eq_settle, hs.effectOf_eq, settle_replaceEntries]

/-! ### Steps and runs -/

theorem fetch_replaceEntries (s : State) (p q : List Word) : fetch (replaceEntries p q s) = fetch s := rfl

theorem ConsumedBy.engineStep_eq (hs : ConsumedBy s p q) :
    engineStep (replaceEntries p q s) = mapNext (replaceEntries p q) (engineStep s) := by
  unfold engineStep
  rw [fetch_replaceEntries]
  cases fetch s with
  | error k => rfl
  | ok i => exact hs.exec_eq i

theorem ConsumedBy.withStatus (hs : ConsumedBy s p q) (st : Status) : ConsumedBy (s.withStatus st) p q :=
  ⟨hs.in_consumed, hs.in_exists, hs.out_consumed, hs.out_exists⟩

theorem ConsumedBy.step_eq (hs : ConsumedBy s p q) :
    step (replaceEntries p q s) = mapNext (replaceEntries p q) (step s) := by
  cases hf : s.fault with
  | some r =>
    have hf' : (replaceEntries p q s).fault = some r := hf
    simp [step, stepOnce, hf, hf', mapNext]
  | none =>
    have hf' : (replaceEntries p q s).fault = none := hf
    cases hst : s.status with
    | running =>
      rw [step_of_running hf hst, step_of_running hf' hst]
      exact hs.engineStep_eq
    | waitingForInput =>
      rw [step_of_waiting hf hst, step_of_waiting hf' hst]
      exact (hs.withStatus .running).engineStep_eq
    | halted =>
      rw [step_of_halted hf hst, step_of_halted hf' hst]
      rfl

theorem ConsumedBy.runLoop_eq (hs : ConsumedBy s p q) (n : Nat) :
    runLoop n (replaceEntries p q s) = (runLoop n s).map (mapNext (replaceEntries p q)) := by
  induction n generalizing s with
  | zero => rfl
  | succ n ih =>
    obtain ⟨t, ht⟩ := engineStep_isNext s
    have ht' : engineStep (replaceEntries p q s) = .next (replaceEntries p q t) := by
      rw [hs.engineStep_eq, ht]
      rfl
    have hgo : runContinues (replaceEntries p q t) = runContinues t := rfl
    cases hc : runContinues t with
    | true => rw [runLoop_succ_of_more n ht hc, runLoop_succ_of_more n ht' (hgo.trans hc), ih (hs.of_engineStep ht)]
    | false =>
      rw [runLoop_succ_of_last n ht hc, runLoop_succ_of_last n ht' (hgo.trans hc)]
      rfl

theorem ConsumedBy.runCommand_eq (hs : ConsumedBy s p q) (n : Nat) :
    runCommand n (replaceEntries p q s) = (runCommand n s).map (mapNext (replaceEntries p q)) := by
  have hf : (replaceEntries p q s).fault = s.fault := rfl
  have hst : (replaceEntries p q s).status = s.status := rfl
  unfold runCommand
  rw [hf, hst]
  split
  · rfl
  · cases s.status with
    | halted => rfl
    | running => exact hs.runLoop_eq n
    | waitingForInput => exact (hs.withStatus .running).runLoop_eq n

/-! ### Host commands -/

theorem unlessFaulted_replaceEntries {α β : Type} (s : State) (p q : List Word) (f : α → β)
    (x : Host.Outcome α Fault Refusal) :
    unlessFaulted (replaceEntries p q s) (mapNext f x) = mapNext f (unlessFaulted s x) := by
  have hf : (replaceEntries p q s).fault = s.fault := rfl
  unfold unlessFaulted
  rw [hf]
  split <;> rfl

theorem ConsumedBy.submitInput_eq (hs : ConsumedBy s p q) (v : Word) :
    submitInput v (replaceEntries p q s) = mapNext (replaceEntries p q) (submitInput v s) := by
  have hroom : queueHasRoom (replaceEntries p q s) (unreadInput (replaceEntries p q s)) =
      queueHasRoom s (unreadInput s) := congrArg (queueHasRoom s) hs.unreadInput_eq
  unfold submitInput
  rw [← unlessFaulted_replaceEntries, hroom, hs.enqueueInput_eq]
  split <;> rfl

theorem ConsumedBy.takeOutput_eq (hs : ConsumedBy s p q) :
    takeOutput (replaceEntries p q s) = (replaceEntries p q (takeOutput s).1, (takeOutput s).2) := by
  have hq := hs.outQ_getElem?
  obtain ⟨v, hv, htake⟩ | ⟨hnone, htake⟩ := takeOutput_cases s <;>
    obtain ⟨v', hv', htake'⟩ | ⟨hnone', htake'⟩ := takeOutput_cases (replaceEntries p q s)
  · obtain rfl : v' = v := Option.some.inj (hv'.symm.trans (hq.trans hv))
    rw [htake, htake']
    rfl
  · cases hnone'.symm.trans (hq.trans hv)
  · cases hv'.symm.trans (hq.trans hnone)
  · rw [htake, htake']

/-- Replacing consumed entries changes the state a command answers in those entries only, and neither its reply nor whether it is
refused or runs out of fuel; peek_last_output needs the last entry of the output queue kept. -/
theorem ConsumedBy.hostCommand_eq (hs : ConsumedBy s p q) (fuel : Nat) (c : HostCommand)
    (hpeek : c = .peekLastOutput → (replaceEntries p q s).outQ.getLast? = s.outQ.getLast?) :
    hostCommand fuel c (replaceEntries p q s) =
      (hostCommand fuel c s).map (mapNext fun a => (replaceEntries p q a.1, a.2)) := by
  cases c with
  | submitInput v =>
    simp only [hostCommand, hs.submitInput_eq]
    cases submitInput v s <;> rfl
  | run =>
    simp only [hostCommand, hs.runCommand_eq]
    cases runCommand fuel s with
    | none => rfl
    | some o => cases o <;> rfl
  | takeOutput =>
    simp only [hostCommand, hs.takeOutput_eq, Option.map_some, ← unlessFaulted_replaceEntries s p q]
    rfl
  | hasUnreadOutput =>
    simp only [hostCommand, Option.map_some, ← unlessFaulted_replaceEntries s p q, hasUnreadOutput, hs.outQ_length]
    rfl
  | peekLastOutput =>
    have hlast : peekLastOutput (replaceEntries p q s) = peekLastOutput s := by
      simpa only [peekLastOutput, ← List.getLast?_eq_getElem?] using hpeek rfl
    simp only [hostCommand, Option.map_some, ← unlessFaulted_replaceEntries s p q, hlast]
    rfl
  | isHalted | isHaltedOrBlocked | memPeek a =>
    simp only [hostCommand, Option.map_some, ← unlessFaulted_replaceEntries s p q]
    rfl

end

/-! ### The statements of R47 -/

theorem consumedBy_input {s : State} {p : List Word} (hle : s.inRd ≤ s.inQ.length) (hp : p.length = s.inRd) :
    ConsumedBy s p [] :=
  ⟨hp.le, hp.trans_le hle, Nat.zero_le _, Nat.zero_le _⟩

theorem consumedBy_output {s : State} {p : List Word} (hle : s.outRd ≤ s.outQ.length) (hp : p.length = s.outRd) :
    ConsumedBy s [] p :=
  ⟨Nat.zero_le _, Nat.zero_le _, hp.le, hp.trans_le hle⟩

/-- Settles O42: the step commutes with the replacement of the consumed input entries, and keeps the queue. -/
theorem consumedInputIsHidden : Obligations.ConsumedInputIsHidden := by
  intro s t p hle hp h
  obtain ⟨hq, -⟩ := inputIsConsumedInOrder.1 s t h
  calc step (withConsumedInput s p s.inRd) = mapNext (replaceEntries p []) (.next t) := by
        rw [← h, ← hp, withConsumedInput_eq_replaceEntries, (consumedBy_input hle hp).step_eq]
    _ = .next { t with inQ := p ++ s.inQ.drop s.inRd } := by
        rw [← hq, ← hp]
        rfl

/-- Settles O59: the one equation for the command on both states covers its answers, its refusals and a lack of fuel. -/
theorem consumedInputIsHiddenFromCommands : Obligations.ConsumedInputIsHiddenFromCommands := by
  intro s p fuel c hle hp
  have hcmd := (consumedBy_input hle hp).hostCommand_eq fuel c fun _ => rfl
  simp only [← hp, withConsumedInput_eq_replaceEntries]
  refine ⟨fun t r h => ?next, fun e h => ?refused, fun h => ?outOfFuel⟩
  all_goals
    rw [h] at hcmd
    exact hcmd

theorem getLast?_append_drop {α : Type} {l p : List α} {n : Nat}
    (h : n < l.length ∨ p.getLast? = (l.take n).getLast?) : (p ++ l.drop n).getLast? = l.getLast? := by
  obtain hlt | hlast := h
  · rw [List.getLast?_append, List.getLast?_drop, if_neg hlt.not_ge, List.getLast?_eq_some_getLast (by rintro rfl; simp at hlt)]
    rfl
  · rw [List.getLast?_append, hlast, ← List.getLast?_append, List.take_append_drop]

/-- Settles O60: the step and the commands commute with the replacement; the queue's last entry is replaced only where every entry is
consumed, and then by one that is the same. -/
theorem consumedOutputIsHidden : Obligations.ConsumedOutputIsHidden := by
  intro s p hle hp
  have hs := consumedBy_output hle hp
  simp only [← hp, withConsumedOutput_eq_replaceEntries]
  refine ⟨fun t h => ?step, fun fuel c t r hlast h => ?command⟩
  case step =>
    have hstep := hs.step_eq
    rw [h] at hstep
    exact hstep
  case command =>
    have hcmd := hs.hostCommand_eq fuel c fun hc => getLast?_append_drop (hlast hc)
    rw [h] at hcmd
    exact hcmd

end Sys2Proof.Machine
end
